-- ==== Sys2Proof/Word.lean ====
section
/-!
DEFINITION. The word types of the block (00_scope.md R9): unsigned words of 8, 32 and 64 bits, and the
vector of four words that every state, raw array and image is made of (10_state.md R20, R21).
-/

namespace Sys2Proof

/-- One byte of a frame, of a response or of an image. -/
abbrev Byte := BitVec 8

/-- A word of the 32-bit engine. -/
abbrev Word32 := BitVec 32

/-- A word of the 64-bit engine. -/
abbrev Word64 := BitVec 64

/-- "a fixed-length ordered sequence of 4 unsigned integer words" (R20, R21): `w` is the word width, `wi` the
word of index `i`. -/
@[ext] structure Vec4 (w : Nat) where
  w0 : BitVec w
  w1 : BitVec w
  w2 : BitVec w
  w3 : BitVec w
deriving DecidableEq, Repr, Inhabited

/-- The all-zero vector, the degenerate state of R30. -/
def Vec4.zero (w : Nat) : Vec4 w := ⟨0#w, 0#w, 0#w, 0#w⟩

/-- Word `i` of a vector: the `s[i]` of the rules (00_scope.md R11). -/
def Vec4.word {w : Nat} (v : Vec4 w) (i : Fin 4) : BitVec w :=
  match i with
  | 0 => v.w0
  | 1 => v.w1
  | 2 => v.w2
  | 3 => v.w3

end Sys2Proof
end

