-- ==== Sys2Proof/Machine/Operands.lean ====
section
/-!
DEFINITION. How words cross the boundary of the block as bytes and how one width is viewed as another:
little-endian (20_memory.md R41), the lower index is the less significant half (R42), operands and results of
frames (30_encoding.md R63, R64).
-/

namespace Sys2Proof.Machine

/-- The unsigned value of a byte string, least significant byte first (R41, R63). -/
def leValue : List Byte → Nat
  | [] => 0
  | b :: bs => b.toNat + 256 * leValue bs

/-- `OpRead(off, w/8)` of R63: the word of `w` bits at offset `off` of a byte area. -/
def opRead (w : Nat) (area : List Byte) (off : Nat) : BitVec w :=
  BitVec.ofNat w (leValue ((area.drop off).take (w / 8)))

/-- `RspWrite(_, n, v)` of R64: the `n` low bytes of `v`, least significant first. -/
def rspWrite {w : Nat} : Nat → BitVec w → List Byte
  | 0, _ => []
  | n + 1, v => v.setWidth 8 :: rspWrite n (v >>> 8)

/-- A 64-bit word as a result or an operand: 8 bytes. -/
def bytes64 (v : Word64) : List Byte := rspWrite 8 v

/-- A 32-bit word as a result or an operand: 4 bytes. -/
def bytes32 (v : Word32) : List Byte := rspWrite 4 v

/-- `high32(x) = x >> 32` (41_rotate_and_halfword.md R102). -/
def high32 (x : Word64) : Word32 := (x >>> 32).setWidth 32

/-- `low32(x) = x & 0xFFFFFFFF` (R103). -/
def low32 (x : Word64) : Word32 := (x &&& 0xFFFFFFFF#64).setWidth 32

/-- `join32(h, l) = (zext_64(h) << 32) | zext_64(l)` (R104). -/
def join32 (h l : Word32) : Word64 := (h.setWidth 64 <<< 32) ||| l.setWidth 64

/-- `pack256` (42_xoshiro256pp.md R125): word `i` is `join32(b[2i+1], b[2i])`. -/
def pack256 (b0 b1 b2 b3 b4 b5 b6 b7 : Word32) : Vec4 64 :=
  ⟨join32 b1 b0, join32 b3 b2, join32 b5 b4, join32 b7 b6⟩

/-- `unpack128` (43_xoshiro128pp.md R167): low half first. -/
def unpack128 (q0 q1 : Word64) : Vec4 32 :=
  ⟨low32 q0, high32 q0, low32 q1, high32 q1⟩

/-- `widen32` (43_xoshiro128pp.md R164): `s` in both halves. -/
def widen32 (s : Word32) : Word64 := join32 s s

/-- Keeping bits [31:0] of a mixer result (43_xoshiro128pp.md R162, decision D3). -/
def narrow32 (x : Word64) : Word32 := x.setWidth 32

end Sys2Proof.Machine
end

