-- ==== Sys2Proof/Syntax.lean ====
section
/-!
DEFINITION. The command set: one constructor per row of spec/opcode_table.json (30_encoding.md R66), with the
operands the row lists, in the row's order. An image is the list of its bytes, offset 0 first; its length is
checked in WellFormed.
-/

namespace Sys2Proof

/-- A command with its operands (R66). -/
inductive Instr where
  | primMix (x : Word64)
  | primRotl64 (x : Word64) (k : Byte)
  | primRotl32 (x : Word32) (k : Byte)
  | primHigh32 (x : Word64)
  | primLow32 (x : Word64)
  | primJoin32 (hi lo : Word32)
  | x256Init
  | x256Seed64 (seed : Word64)
  | x256Seedraw (w0 w1 w2 w3 : Word64)
  | x256Seedseq (b0 b1 b2 b3 b4 b5 b6 b7 : Word32)
  | x256Next
  | x256Discard (n : Word64)
  | x256Eq (w0 w1 w2 w3 : Word64)
  | x256Save
  | x256Load (img : List Byte)
  | x256Min
  | x256Max
  | x128Init
  | x128Seed64 (seed : Word64)
  | x128Seedraw (w0 w1 w2 w3 : Word32)
  | x128Seedseq (b0 b1 b2 b3 : Word32)
  | x128Next
  | x128Discard (n : Word64)
  | x128Eq (w0 w1 w2 w3 : Word32)
  | x128Save
  | x128Load (img : List Byte)
  | x128Min
  | x128Max
  | x128Seed32 (seed : Word32)
  | x128Seedraw64 (q0 q1 : Word64)
deriving DecidableEq, Repr

end Sys2Proof
end

