-- ==== Sys2Proof/WellFormed.lean ====
section
/-!
DEFINITION. Which terms of Instr are commands of the block. Operand values are never reserved (30_encoding.md
R68), so the widths of the operand types are the whole check, except for the two images, whose byte count the
rules fix: 36 (20_memory.md R43) and 20 (R44).
-/

namespace Sys2Proof

/-- Every constructor is named, so that a new command cannot slip past the check. -/
def Instr.wf : Instr → Bool
  | .x256Load img => img.length == 36
  | .x128Load img => img.length == 20
  | .primMix _ | .primRotl64 _ _ | .primRotl32 _ _ | .primHigh32 _ | .primLow32 _ | .primJoin32 _ _ => true
  | .x256Init | .x256Seed64 _ | .x256Seedraw _ _ _ _ | .x256Seedseq _ _ _ _ _ _ _ _ | .x256Next => true
  | .x256Discard _ | .x256Eq _ _ _ _ | .x256Save | .x256Min | .x256Max => true
  | .x128Init | .x128Seed64 _ | .x128Seedraw _ _ _ _ | .x128Seedseq _ _ _ _ | .x128Next => true
  | .x128Discard _ | .x128Eq _ _ _ _ | .x128Save | .x128Min | .x128Max => true
  | .x128Seed32 _ | .x128Seedraw64 _ _ => true

end Sys2Proof
end

