-- ==== Sys2Proof/Decode.lean ====
section
/-!
DEFINITION. The command encoding (30_encoding.md): the opcode map R66, the fields of the opcode byte R61, the
decode procedure R71 (total on any bytes, each rejection under its own name), the encoder, and the table's word
numbering for the host. Decode reads no state (R71).
-/

namespace Sys2Proof

open Machine

/-- The 30 commands without their operands: the rows of R66. -/
inductive Op where
  | primMix | primRotl64 | primRotl32 | primHigh32 | primLow32 | primJoin32
  | x256Init | x256Seed64 | x256Seedraw | x256Seedseq | x256Next | x256Discard | x256Eq | x256Save | x256Load
  | x256Min | x256Max
  | x128Init | x128Seed64 | x128Seedraw | x128Seedseq | x128Next | x128Discard | x128Eq | x128Save | x128Load
  | x128Min | x128Max | x128Seed32 | x128Seedraw64
deriving DecidableEq, Repr

/-- The units of R61; `reserved` is `op[7:6] = 11`. -/
inductive CmdUnit where
  | prim | x256 | x128 | reserved
deriving DecidableEq, Repr

/-- Why a frame is no command (R71, 60_exceptions.md R226): the frame is empty, its opcode is reserved, or its
length is not the required one of its opcode. -/
inductive Reject where
  | emptyFrame
  | reservedOpcode
  | wrongLength
deriving DecidableEq, Repr

/-- The answer of the decoder: a command, or the reason there is none. -/
inductive Decoded where
  | instr (i : Instr)
  | reject (r : Reject)
deriving DecidableEq, Repr

/-- The rows of R66 in the table's order. -/
def allOps : List Op :=
  [.primMix, .primRotl64, .primRotl32, .primHigh32, .primLow32, .primJoin32,
   .x256Init, .x256Seed64, .x256Seedraw, .x256Seedseq, .x256Next, .x256Discard, .x256Eq, .x256Save, .x256Load,
   .x256Min, .x256Max] ++
  [.x128Init, .x128Seed64, .x128Seedraw, .x128Seedseq, .x128Next, .x128Discard, .x128Eq, .x128Save, .x128Load,
   .x128Min, .x128Max, .x128Seed32, .x128Seedraw64]

/-- The column `op` of R66. -/
def opCode : Op → Byte
  | .primMix => 0x01#8
  | .primRotl64 => 0x02#8
  | .primRotl32 => 0x03#8
  | .primHigh32 => 0x04#8
  | .primLow32 => 0x05#8
  | .primJoin32 => 0x06#8
  | .x256Init => 0x40#8
  | .x256Seed64 => 0x41#8
  | .x256Seedraw => 0x42#8
  | .x256Seedseq => 0x43#8
  | .x256Next => 0x44#8
  | .x256Discard => 0x45#8
  | .x256Eq => 0x46#8
  | .x256Save => 0x47#8
  | .x256Load => 0x48#8
  | .x256Min => 0x49#8
  | .x256Max => 0x4A#8
  | .x128Init => 0x80#8
  | .x128Seed64 => 0x81#8
  | .x128Seedraw => 0x82#8
  | .x128Seedseq => 0x83#8
  | .x128Next => 0x84#8
  | .x128Discard => 0x85#8
  | .x128Eq => 0x86#8
  | .x128Save => 0x87#8
  | .x128Load => 0x88#8
  | .x128Min => 0x89#8
  | .x128Max => 0x8A#8
  | .x128Seed32 => 0x8B#8
  | .x128Seedraw64 => 0x8C#8

/-- The column `operand length` of R66, in bytes. -/
def operandLength : Op → Nat
  | .primMix => 8
  | .primRotl64 => 9
  | .primRotl32 => 5
  | .primHigh32 => 8
  | .primLow32 => 8
  | .primJoin32 => 8
  | .x256Init => 0
  | .x256Seed64 => 8
  | .x256Seedraw => 32
  | .x256Seedseq => 32
  | .x256Next => 0
  | .x256Discard => 8
  | .x256Eq => 32
  | .x256Save => 0
  | .x256Load => 36
  | .x256Min => 0
  | .x256Max => 0
  | .x128Init => 0
  | .x128Seed64 => 8
  | .x128Seedraw => 16
  | .x128Seedseq => 16
  | .x128Next => 0
  | .x128Discard => 8
  | .x128Eq => 16
  | .x128Save => 0
  | .x128Load => 20
  | .x128Min => 0
  | .x128Max => 0
  | .x128Seed32 => 4
  | .x128Seedraw64 => 16

/-- The column `result length` of R66, in bytes: the result area of an `OK` response. -/
def resultLength : Op → Nat
  | .primMix => 8
  | .primRotl64 => 8
  | .primRotl32 => 4
  | .primHigh32 => 4
  | .primLow32 => 4
  | .primJoin32 => 8
  | .x256Init => 0
  | .x256Seed64 => 0
  | .x256Seedraw => 0
  | .x256Seedseq => 0
  | .x256Next => 8
  | .x256Discard => 0
  | .x256Eq => 1
  | .x256Save => 36
  | .x256Load => 0
  | .x256Min => 8
  | .x256Max => 8
  | .x128Init => 0
  | .x128Seed64 => 0
  | .x128Seedraw => 0
  | .x128Seedseq => 0
  | .x128Next => 4
  | .x128Discard => 0
  | .x128Eq => 1
  | .x128Save => 20
  | .x128Load => 0
  | .x128Min => 4
  | .x128Max => 4
  | .x128Seed32 => 0
  | .x128Seedraw64 => 0

/-- The unit field `op[7:6]` of the opcode byte (R61). -/
def unitOfCode (code : Byte) : CmdUnit :=
  if code.extractLsb' 6 2 = 0#2 then .prim
  else if code.extractLsb' 6 2 = 1#2 then .x256
  else if code.extractLsb' 6 2 = 2#2 then .x128
  else .reserved

/-- The function field `op[5:0]` of the opcode byte (R61). -/
def funcOfCode (code : Byte) : BitVec 6 := code.extractLsb' 0 6

/-- The command an opcode byte selects; none for a reserved one (R66, R67). -/
def opOfCode (code : Byte) : Option Op :=
  allOps.find? (fun o => opCode o == code)

/-- The operands of each row of R66, read at the row's offsets (R63). -/
def readOperands (o : Op) (area : List Byte) : Instr :=
  match o with
  | .primMix => .primMix (opRead 64 area 0)
  | .primRotl64 => .primRotl64 (opRead 64 area 0) (opRead 8 area 8)
  | .primRotl32 => .primRotl32 (opRead 32 area 0) (opRead 8 area 4)
  | .primHigh32 => .primHigh32 (opRead 64 area 0)
  | .primLow32 => .primLow32 (opRead 64 area 0)
  | .primJoin32 => .primJoin32 (opRead 32 area 0) (opRead 32 area 4)
  | .x256Init => .x256Init
  | .x256Seed64 => .x256Seed64 (opRead 64 area 0)
  | .x256Seedraw => .x256Seedraw (opRead 64 area 0) (opRead 64 area 8) (opRead 64 area 16) (opRead 64 area 24)
  | .x256Seedseq =>
    .x256Seedseq (opRead 32 area 0) (opRead 32 area 4) (opRead 32 area 8) (opRead 32 area 12)
      (opRead 32 area 16) (opRead 32 area 20) (opRead 32 area 24) (opRead 32 area 28)
  | .x256Next => .x256Next
  | .x256Discard => .x256Discard (opRead 64 area 0)
  | .x256Eq => .x256Eq (opRead 64 area 0) (opRead 64 area 8) (opRead 64 area 16) (opRead 64 area 24)
  | .x256Save => .x256Save
  | .x256Load => .x256Load area
  | .x256Min => .x256Min
  | .x256Max => .x256Max
  | .x128Init => .x128Init
  | .x128Seed64 => .x128Seed64 (opRead 64 area 0)
  | .x128Seedraw => .x128Seedraw (opRead 32 area 0) (opRead 32 area 4) (opRead 32 area 8) (opRead 32 area 12)
  | .x128Seedseq => .x128Seedseq (opRead 32 area 0) (opRead 32 area 4) (opRead 32 area 8) (opRead 32 area 12)
  | .x128Next => .x128Next
  | .x128Discard => .x128Discard (opRead 64 area 0)
  | .x128Eq => .x128Eq (opRead 32 area 0) (opRead 32 area 4) (opRead 32 area 8) (opRead 32 area 12)
  | .x128Save => .x128Save
  | .x128Load => .x128Load area
  | .x128Min => .x128Min
  | .x128Max => .x128Max
  | .x128Seed32 => .x128Seed32 (opRead 32 area 0)
  | .x128Seedraw64 => .x128Seedraw64 (opRead 64 area 0) (opRead 64 area 8)

/-- The decode procedure R71, its checks in the order of 60_exceptions.md R226. -/
def decodeFrame : List Byte → Decoded
  | [] => .reject .emptyFrame
  | code :: area =>
    match opOfCode code with
    | none => .reject .reservedOpcode
    | some o => if area.length = operandLength o then .instr (readOperands o area) else .reject .wrongLength

/-- The row of R66 a command belongs to. -/
def instrOp : Instr → Op
  | .primMix _ => .primMix
  | .primRotl64 _ _ => .primRotl64
  | .primRotl32 _ _ => .primRotl32
  | .primHigh32 _ => .primHigh32
  | .primLow32 _ => .primLow32
  | .primJoin32 _ _ => .primJoin32
  | .x256Init => .x256Init
  | .x256Seed64 _ => .x256Seed64
  | .x256Seedraw _ _ _ _ => .x256Seedraw
  | .x256Seedseq _ _ _ _ _ _ _ _ => .x256Seedseq
  | .x256Next => .x256Next
  | .x256Discard _ => .x256Discard
  | .x256Eq _ _ _ _ => .x256Eq
  | .x256Save => .x256Save
  | .x256Load _ => .x256Load
  | .x256Min => .x256Min
  | .x256Max => .x256Max
  | .x128Init => .x128Init
  | .x128Seed64 _ => .x128Seed64
  | .x128Seedraw _ _ _ _ => .x128Seedraw
  | .x128Seedseq _ _ _ _ => .x128Seedseq
  | .x128Next => .x128Next
  | .x128Discard _ => .x128Discard
  | .x128Eq _ _ _ _ => .x128Eq
  | .x128Save => .x128Save
  | .x128Load _ => .x128Load
  | .x128Min => .x128Min
  | .x128Max => .x128Max
  | .x128Seed32 _ => .x128Seed32
  | .x128Seedraw64 _ _ => .x128Seedraw64

/-- The operand area of a command: each operand little-endian, in the order of R66 with no padding (R63). -/
def operandBytes : Instr → List Byte
  | .primMix x => bytes64 x
  | .primRotl64 x k => bytes64 x ++ [k]
  | .primRotl32 x k => bytes32 x ++ [k]
  | .primHigh32 x => bytes64 x
  | .primLow32 x => bytes64 x
  | .primJoin32 hi lo => bytes32 hi ++ bytes32 lo
  | .x256Init => []
  | .x256Seed64 seed => bytes64 seed
  | .x256Seedraw w0 w1 w2 w3 => bytes64 w0 ++ bytes64 w1 ++ bytes64 w2 ++ bytes64 w3
  | .x256Seedseq b0 b1 b2 b3 b4 b5 b6 b7 =>
    bytes32 b0 ++ bytes32 b1 ++ bytes32 b2 ++ bytes32 b3 ++ bytes32 b4 ++ bytes32 b5 ++ bytes32 b6 ++ bytes32 b7
  | .x256Next => []
  | .x256Discard n => bytes64 n
  | .x256Eq w0 w1 w2 w3 => bytes64 w0 ++ bytes64 w1 ++ bytes64 w2 ++ bytes64 w3
  | .x256Save => []
  | .x256Load img => img
  | .x256Min => []
  | .x256Max => []
  | .x128Init => []
  | .x128Seed64 seed => bytes64 seed
  | .x128Seedraw w0 w1 w2 w3 => bytes32 w0 ++ bytes32 w1 ++ bytes32 w2 ++ bytes32 w3
  | .x128Seedseq b0 b1 b2 b3 => bytes32 b0 ++ bytes32 b1 ++ bytes32 b2 ++ bytes32 b3
  | .x128Next => []
  | .x128Discard n => bytes64 n
  | .x128Eq w0 w1 w2 w3 => bytes32 w0 ++ bytes32 w1 ++ bytes32 w2 ++ bytes32 w3
  | .x128Save => []
  | .x128Load img => img
  | .x128Min => []
  | .x128Max => []
  | .x128Seed32 seed => bytes32 seed
  | .x128Seedraw64 q0 q1 => bytes64 q0 ++ bytes64 q1

/-- The command frame of a command (R60): the opcode byte, then the operand area. -/
def encode (i : Instr) : List Byte := opCode (instrOp i) :: operandBytes i

/-- The first `n` bytes of a number, the byte of the lowest weight first. -/
def lowBytes : Nat → Nat → List Byte
  | 0, _ => []
  | n + 1, v => BitVec.ofNat 8 v :: lowBytes n (v / 256)

/-- The frame the host's numbering of the table means: byte `j` of the frame is bits `8j+7 .. 8j` of `w`, every
bit from `nbits` up is 0, and the frame has the length its opcode requires (R65); under a reserved opcode it has
the `nbits` given. -/
def tableFrame (nbits w : Nat) : List Byte :=
  let v := w % 2 ^ nbits
  match opOfCode (BitVec.ofNat 8 v) with
  | some o => lowBytes (1 + operandLength o) v
  | none => lowBytes ((nbits + 7) / 8) v

/-- What the decoder reads from the frame of a table word. -/
def decodeTableWord (nbits w : Nat) : Option Instr :=
  match decodeFrame (tableFrame nbits w) with
  | .instr i => some i
  | .reject _ => none

end Sys2Proof
end

