-- ==== Sys2Proof/Config.lean ====
section
/-!
DEFINITION. The two OPEN parameters of the spec (00_scope.md R5, 10_state.md R36, decision D11): the default
vectors of the two engines, constrained only to be not all-zero. They are built from opaque constants without a
body, so nothing in Lean can evaluate a word of them, and the constraint holds by construction: a free vector in
which one bit, at a free place, is one. Exactly the vectors that are not all-zero have that form
(Sys2Proof/Laws/Config.lean), so no candidate the spec allows is left out and none is preferred (log entry 4).
-/

namespace Sys2Proof

/-- The free words of the 64-bit engine's default vector. -/
opaque Config.anyVector256 : Vec4 64

/-- The index of a word of DEFAULT_STATE_256 that is not zero. -/
opaque Config.nonzeroWord256 : Fin 4

/-- A bit that is one in that word. -/
opaque Config.nonzeroBit256 : Fin 64

/-- The free words of the 32-bit engine's default vector. -/
opaque Config.anyVector128 : Vec4 32

/-- The index of a word of DEFAULT_STATE_128 that is not zero. -/
opaque Config.nonzeroWord128 : Fin 4

/-- A bit that is one in that word. -/
opaque Config.nonzeroBit128 : Fin 32

/-- `v` with bit `b` of word `i` set to one. -/
def Config.withOneAt {w : Nat} (v : Vec4 w) (i : Fin 4) (b : Fin w) : Vec4 w :=
  let one (j : Fin 4) : BitVec w := if j = i then BitVec.twoPow w b.val else 0#w
  ⟨v.w0 ||| one 0, v.w1 ||| one 1, v.w2 ||| one 2, v.w3 ||| one 3⟩

/-- `DEFAULT_STATE_256` (R5, R36): "a fixed non-zero constant vector" whose numbers the spec leaves OPEN. -/
def Config.defaultState256 : Vec4 64 :=
  Config.withOneAt Config.anyVector256 Config.nonzeroWord256 Config.nonzeroBit256

/-- `DEFAULT_STATE_128` (R5, R36), not related to `DEFAULT_STATE_256` in any way (R161). -/
def Config.defaultState128 : Vec4 32 :=
  Config.withOneAt Config.anyVector128 Config.nonzeroWord128 Config.nonzeroBit128

end Sys2Proof
end

