-- ==== Sys2Proof/Machine/State.lean ====
section
/-!
DEFINITION. The state of the block (10_state.md R20, R21, R27: two vectors of four words and nothing else) and,
beside it, the two records that stand for the host: what it presents next and what it has been answered. Both are
the model's own fields (R29, log entries 1 and 2): no command reads or writes `requests`, no command reads
`responses`.
-/

namespace Sys2Proof.Machine

/-- What the host can do at the command port (60_exceptions.md R231). -/
inductive Request where
  /-- Presents a command frame: any byte string (30_encoding.md R60). -/
  | frame (bytes : List Byte)
  /-- Requests reset between commands (70_reset_and_hazards.md R250). -/
  | reset
  /-- Breaks the protocol: two requests at once, or a request while a command is outstanding ("assumed never",
  R231, 93_implementation_defined.md U5). -/
  | overlap
deriving DecidableEq, Repr

/-- Why the machine stops. No command stops it: an error response is an answer, after which the block accepts the
next frame (60_exceptions.md R224, R228). -/
inductive Fault where
  /-- Raised by the step when the host overlaps requests: "no step exists for it" (R231, U5). Safe: the spec gives
  no behaviour, and the model shows none (log entry 3). -/
  | overlappingRequests
deriving DecidableEq, Repr

/-- Why an instruction has no meaning. -/
inductive Refusal where
  /-- Raised by an arm of exec whose command has no meaning yet. No arm raises it: every command of the table has
  its meaning. Safe. -/
  | notModelled (mnemonic : String)
deriving DecidableEq, Repr

/-- The block's state and the host's two records. -/
structure State where
  /-- The state vector of the 64-bit engine (R20). -/
  s256 : Vec4 64
  /-- The state vector of the 32-bit engine (R21). -/
  s128 : Vec4 32
  /-- The model's own: what the host presents next, oldest first (20_memory.md R49). -/
  requests : List Request
  /-- The model's own: the response frames given so far, oldest first (30_encoding.md R62, 60_exceptions.md
  R228). -/
  responses : List (List Byte)
deriving DecidableEq, Repr

/-- The block right after reset (10_state.md R36, 70_reset_and_hazards.md R250), before the host has presented or
received anything. -/
def State.reset : State :=
  { s256 := Config.defaultState256, s128 := Config.defaultState128, requests := [], responses := [] }

end Sys2Proof.Machine
end

