-- ==== Sys2Proof/Machine/Ops.lean ====
section
/-!
DEFINITION. The named operations over the state: writing a whole vector (20_memory.md R47: no narrower access
exists), answering a command (30_encoding.md R62), raising an error (60_exceptions.md R224), reset
(70_reset_and_hazards.md R250), and moving the host's requests.
-/

namespace Sys2Proof.Machine

/-- The status values of 60_exceptions.md R221. -/
inductive Status where
  | ok | eIllegal | eLength | eRotrange
deriving DecidableEq, Repr

/-- The status byte of a response (R221); the codes 0x04 .. 0xFF are never produced. -/
def statusCode : Status → Byte
  | .ok => 0x00#8
  | .eIllegal => 0x01#8
  | .eLength => 0x02#8
  | .eRotrange => 0x03#8

/-- The error that answers a frame which is no command (R222, R223). -/
def rejectStatus : Reject → Status
  | .emptyFrame => .eLength
  | .reservedOpcode => .eIllegal
  | .wrongLength => .eLength

/-- `s256 <- [v0, v1, v2, v3]` (00_scope.md R11). -/
def writeS256 (v : Vec4 64) (s : State) : State := { s with s256 := v }

/-- `s128 <- [v0, v1, v2, v3]` (00_scope.md R11). -/
def writeS128 (v : Vec4 32) (s : State) : State := { s with s128 := v }

/-- One more response frame for the host. -/
def pushResponse (bytes : List Byte) (s : State) : State := { s with responses := s.responses ++ [bytes] }

/-- The response of a command that was executed: the status byte `OK`, then the result area (30_encoding.md R62). -/
def respond (result : List Byte) (s : State) : State := pushResponse (statusCode .ok :: result) s

/-- `raise E` (00_scope.md R11, 60_exceptions.md R224): no state word is written, nothing is saved, and the
response is the single status byte. -/
def raiseError (e : Status) (s : State) : State := pushResponse [statusCode e] s

/-- Reset (70_reset_and_hazards.md R250): both vectors take their defaults and nothing else changes. -/
def takeReset (s : State) : State :=
  writeS128 Config.defaultState128 (writeS256 Config.defaultState256 s)

/-- The host's remaining requests, once the first has been taken. -/
def setRequests (rs : List Request) (s : State) : State := { s with requests := rs }

/-- The host presents a frame before everything else it was going to present. -/
def presentFrame (bytes : List Byte) (s : State) : State := setRequests (.frame bytes :: s.requests) s

end Sys2Proof.Machine
end

