-- ==== Sys2Proof/Machine/Params.lean ====
section
/-!
DEFINITION. The parameters of the block that the spec fixes (00_scope.md R5). The two OPEN ones are in Config.
-/

namespace Sys2Proof.Machine

/-- `GAMMA`, the mixer's additive constant. -/
def gamma : Word64 := 0x9e3779b97f4a7c15#64

/-- `MUL1`, the mixer's first multiplier. -/
def mul1 : Word64 := 0xbf58476d1ce4e5b9#64

/-- `MUL2`, the mixer's second multiplier. -/
def mul2 : Word64 := 0x94d049bb133111eb#64

/-- The mixer's right shifts, in order. -/
def mixShift1 : Nat := 30
def mixShift2 : Nat := 27
def mixShift3 : Nat := 31

/-- `A256`, `B256`, `C256`: result rotate, `t` left shift, final rotate of the 64-bit engine. -/
def rotA256 : Nat := 23
def shiftB256 : Nat := 17
def rotC256 : Nat := 45

/-- `A128`, `B128`, `C128`: the same of the 32-bit engine. -/
def rotA128 : Nat := 7
def shiftB128 : Nat := 9
def rotC128 : Nat := 11

/-- `SEP`, the ASCII space written after each serialized word (R5, 20_memory.md R43). -/
def separator : Byte := 0x20#8

end Sys2Proof.Machine
end

