-- ==== Sys2Proof/Machine/Serializer.lean ====
section
/-!
DEFINITION. Serialization and deserialization (44_serializer.md): four words in index order, each followed by one
separator byte, the last one too (20_memory.md R45). Nothing is validated on the way in but the byte count (R208,
R210).
-/

namespace Sys2Proof.Machine

/-- The image of a vector whose words are `n` bytes wide (R200, R204). -/
def serialize {w : Nat} (n : Nat) (v : Vec4 w) : List Byte :=
  (rspWrite n v.w0 ++ [separator]) ++ (rspWrite n v.w1 ++ [separator]) ++
    (rspWrite n v.w2 ++ [separator]) ++ (rspWrite n v.w3 ++ [separator])

/-- The four words of an image whose words are `n` bytes wide: word `i` is read at `(n + 1) * i`, its separator is
consumed and ignored (R202, R206). -/
def deserialize (w n : Nat) (img : List Byte) : Vec4 w :=
  ⟨opRead w img 0, opRead w img (n + 1), opRead w img (2 * (n + 1)), opRead w img (3 * (n + 1))⟩

/-- `ser256` (R200): 36 bytes. -/
def ser256 (v : Vec4 64) : List Byte := serialize 8 v

/-- `deser256` (R202): a function of 36 bytes, without a value on any other length (R210). -/
def deser256 (img : List Byte) : Option (Vec4 64) :=
  if img.length = 36 then some (deserialize 64 8 img) else none

/-- `ser128` (R204): 20 bytes. -/
def ser128 (v : Vec4 32) : List Byte := serialize 4 v

/-- `deser128` (R206): a function of 20 bytes. -/
def deser128 (img : List Byte) : Option (Vec4 32) :=
  if img.length = 20 then some (deserialize 32 4 img) else none

/-- X256.SAVE (R201). -/
def execX256Save (s : State) : Host.Outcome State Fault Refusal :=
  .next (respond (ser256 s.s256) s)

/-- X256.LOAD (R203): fail fast on a wrong byte count, never a partial overwrite (R210). -/
def execX256Load (img : List Byte) (s : State) : Host.Outcome State Fault Refusal :=
  match deser256 img with
  | some v => .next (respond [] (writeS256 v s))
  | none => .next (raiseError .eLength s)

/-- X128.SAVE (R205). -/
def execX128Save (s : State) : Host.Outcome State Fault Refusal :=
  .next (respond (ser128 s.s128) s)

/-- X128.LOAD (R207). -/
def execX128Load (img : List Byte) (s : State) : Host.Outcome State Fault Refusal :=
  match deser128 img with
  | some v => .next (respond [] (writeS128 v s))
  | none => .next (raiseError .eLength s)

end Sys2Proof.Machine
end

