-- ==== Sys2Proof/Machine/Prim.lean ====
section
/-!
DEFINITION. The pure functions and the six commands of unit PRIM: the seed mixer (40_splitmix64_mixer.md), the
rotations and the half-word helpers (41_rotate_and_halfword.md). No command of this unit reads or writes a state
vector.
-/

namespace Sys2Proof.Machine

/-- `mix` (R90). The shifts are logical; each exclusive or takes the value before the shift on both sides. -/
def mix (x : Word64) : Word64 :=
  let z0 := x + gamma
  let z1 := (z0 ^^^ (z0 >>> mixShift1)) * mul1
  let z2 := (z1 ^^^ (z1 >>> mixShift2)) * mul2
  z2 ^^^ (z2 >>> mixShift3)

/-- The rotation of a word by an amount inside the domain (R100, R101, R105): there is no value outside it. -/
def rotl {w : Nat} (x : BitVec w) (k : Nat) (_inDomain : 0 < k ∧ k < w) : BitVec w :=
  (x <<< k) ||| (x >>> (w - k))

/-- `rotl64` (R100). -/
def rotl64 (x : Word64) (k : Nat) (inDomain : 0 < k ∧ k < 64) : Word64 := rotl x k inDomain

/-- `rotl32` (R101). -/
def rotl32 (x : Word32) (k : Nat) (inDomain : 0 < k ∧ k < 32) : Word32 := rotl x k inDomain

/-- PRIM.MIX (R91). -/
def execPrimMix (x : Word64) (s : State) : Host.Outcome State Fault Refusal :=
  .next (respond (bytes64 (mix x)) s)

/-- PRIM.ROTL64 (R106): an amount outside `1 .. 63` is answered `E_ROTRANGE` (R105, 60_exceptions.md R225). -/
def execPrimRotl64 (x : Word64) (k : Byte) (s : State) : Host.Outcome State Fault Refusal :=
  if h : 0 < k.toNat ∧ k.toNat < 64 then .next (respond (bytes64 (rotl64 x k.toNat h)) s)
  else .next (raiseError .eRotrange s)

/-- PRIM.ROTL32 (R107): an amount outside `1 .. 31` is answered `E_ROTRANGE`. -/
def execPrimRotl32 (x : Word32) (k : Byte) (s : State) : Host.Outcome State Fault Refusal :=
  if h : 0 < k.toNat ∧ k.toNat < 32 then .next (respond (bytes32 (rotl32 x k.toNat h)) s)
  else .next (raiseError .eRotrange s)

/-- PRIM.HIGH32 (R108). -/
def execPrimHigh32 (x : Word64) (s : State) : Host.Outcome State Fault Refusal :=
  .next (respond (bytes32 (high32 x)) s)

/-- PRIM.LOW32 (R109). -/
def execPrimLow32 (x : Word64) (s : State) : Host.Outcome State Fault Refusal :=
  .next (respond (bytes32 (low32 x)) s)

/-- PRIM.JOIN32 (R110). -/
def execPrimJoin32 (hi lo : Word32) (s : State) : Host.Outcome State Fault Refusal :=
  .next (respond (bytes64 (join32 hi lo)) s)

end Sys2Proof.Machine
end

