-- ==== Sys2Proof/Machine/Engine.lean ====
section
/-!
DEFINITION. The generation step and its repetition, which the two engines share: "identical structural
recurrence" (43_xoshiro128pp.md R172) under different constants and widths.
-/

namespace Sys2Proof.Machine

/-- One generation step (42_xoshiro256pp.md R128, 43_xoshiro128pp.md R172) under the rotate amount `a` of the
result, the left shift `b` of `t` and the rotate amount `c` of the last word. The statements run in the order the
rules write them: a later one sees an earlier write. -/
def engineStep {w : Nat} (a b c : Nat) (ha : 0 < a ∧ a < w) (hc : 0 < c ∧ c < w) (s : Vec4 w) :
    BitVec w × Vec4 w :=
  let result := rotl (s.w0 + s.w3) a ha + s.w0
  let t := s.w1 <<< b
  let s := { s with w2 := s.w2 ^^^ s.w0 }
  let s := { s with w3 := s.w3 ^^^ s.w1 }
  let s := { s with w1 := s.w1 ^^^ s.w2 }
  let s := { s with w0 := s.w0 ^^^ s.w3 }
  let s := { s with w2 := s.w2 ^^^ t }
  let s := { s with w3 := rotl s.w3 c hc }
  (result, s)

/-- `n` steps of `next`, each result dropped (R131, R175): "no shortcut/jump-ahead is provided". -/
def discardSteps {w : Nat} (next : Vec4 w → BitVec w × Vec4 w) (s : Vec4 w) : Nat → Vec4 w
  | 0 => s
  | n + 1 => discardSteps next (next s).2 n

end Sys2Proof.Machine
end

