-- ==== Sys2Proof/Machine/Flags.lean ====
section
/-!
DEFINITION. The block has no flags, condition codes or predicates (10_state.md R25). The one flag-like value is
the result byte of the two `EQ` commands (30_encoding.md R64): it lives in the response and is not kept.
-/

namespace Sys2Proof.Machine

/-- `eq256` (42_xoshiro256pp.md R133): all four words equal. -/
def eq256 (a b : Vec4 64) : Bool := a.w0 == b.w0 && a.w1 == b.w1 && a.w2 == b.w2 && a.w3 == b.w3

/-- `eq128` (43_xoshiro128pp.md R177): all four words equal. -/
def eq128 (a b : Vec4 32) : Bool := a.w0 == b.w0 && a.w1 == b.w1 && a.w2 == b.w2 && a.w3 == b.w3

/-- "The one-byte result of `EQ` is `0x01` for equal and `0x00` for not equal" (R64). -/
def flagByte (equal : Bool) : Byte := if equal then 0x01#8 else 0x00#8

end Sys2Proof.Machine
end

