-- ==== Sys2Proof/Machine/X128.lean ====
section
/-!
DEFINITION. The 32-bit engine, unit X128 (43_xoshiro128pp.md): construction, the five seeding paths, generation,
discard, equality and range. SAVE and LOAD are in Machine/Serializer.lean. No command here reads or writes `s256`
(10_state.md R22).
-/

namespace Sys2Proof.Machine

/-- `seed128` (R162): the high half feeds the lower index, and a mixer result keeps its bits [31:0] (decision
D3). -/
def seed128 (seed : Word64) : Vec4 32 :=
  let t1 := mix seed
  let t2 := mix t1
  let half (h : Word32) : Word32 := narrow32 (mix (h.setWidth 64))
  ⟨half (high32 t1), half (low32 t1), half (high32 t2), half (low32 t2)⟩

/-- `next128` (R172). -/
def next128 (s : Vec4 32) : Word32 × Vec4 32 :=
  engineStep rotA128 shiftB128 rotC128 (by decide) (by decide) s

/-- `discard128` (R175). -/
def discard128 (s : Vec4 32) (n : Nat) : Vec4 32 := discardSteps next128 s n

/-- X128.INIT (R161). -/
def execX128Init (s : State) : Host.Outcome State Fault Refusal :=
  .next (respond [] (writeS128 Config.defaultState128 s))

/-- X128.SEED64 (R163). -/
def execX128Seed64 (seed : Word64) (s : State) : Host.Outcome State Fault Refusal :=
  .next (respond [] (writeS128 (seed128 seed) s))

/-- X128.SEED32 (R165). -/
def execX128Seed32 (seed : Word32) (s : State) : Host.Outcome State Fault Refusal :=
  .next (respond [] (writeS128 (seed128 (widen32 seed)) s))

/-- X128.SEEDRAW (R166): the all-zero vector is accepted. -/
def execX128Seedraw (w0 w1 w2 w3 : Word32) (s : State) : Host.Outcome State Fault Refusal :=
  .next (respond [] (writeS128 ⟨w0, w1, w2, w3⟩ s))

/-- X128.SEEDRAW64 (R168). -/
def execX128Seedraw64 (q0 q1 : Word64) (s : State) : Host.Outcome State Fault Refusal :=
  .next (respond [] (writeS128 (unpack128 q0 q1) s))

/-- X128.SEEDSEQ (R170). -/
def execX128Seedseq (b0 b1 b2 b3 : Word32) (s : State) : Host.Outcome State Fault Refusal :=
  .next (respond [] (writeS128 ⟨b0, b1, b2, b3⟩ s))

/-- X128.NEXT (R173). -/
def execX128Next (s : State) : Host.Outcome State Fault Refusal :=
  .next (respond (bytes32 (next128 s.s128).1) (writeS128 (next128 s.s128).2 s))

/-- X128.DISCARD (R176): the count is 64 bits wide in both units. -/
def execX128Discard (n : Word64) (s : State) : Host.Outcome State Fault Refusal :=
  .next (respond [] (writeS128 (discard128 s.s128 n.toNat) s))

/-- X128.EQ (R178). -/
def execX128Eq (w0 w1 w2 w3 : Word32) (s : State) : Host.Outcome State Fault Refusal :=
  .next (respond [flagByte (eq128 s.s128 ⟨w0, w1, w2, w3⟩)] s)

/-- X128.MIN (R179). -/
def execX128Min (s : State) : Host.Outcome State Fault Refusal :=
  .next (respond (bytes32 0#32) s)

/-- X128.MAX (R180). -/
def execX128Max (s : State) : Host.Outcome State Fault Refusal :=
  .next (respond (bytes32 0xFFFFFFFF#32) s)

end Sys2Proof.Machine
end

