-- ==== Sys2Proof/Machine/X256.lean ====
section
/-!
DEFINITION. The 64-bit engine, unit X256 (42_xoshiro256pp.md): construction, seeding, generation, discard,
equality and range. SAVE and LOAD are in Machine/Serializer.lean. No command here reads or writes `s128`
(10_state.md R22).
-/

namespace Sys2Proof.Machine

/-- `seed256` (R122): word `k` is `mix` applied `k + 2` times. -/
def seed256 (seed : Word64) : Vec4 64 :=
  let v0 := mix (mix seed)
  let v1 := mix v0
  let v2 := mix v1
  let v3 := mix v2
  ⟨v0, v1, v2, v3⟩

/-- `next256` (R128). -/
def next256 (s : Vec4 64) : Word64 × Vec4 64 :=
  engineStep rotA256 shiftB256 rotC256 (by decide) (by decide) s

/-- `discard256` (R131). -/
def discard256 (s : Vec4 64) (n : Nat) : Vec4 64 := discardSteps next256 s n

/-- X256.INIT (R121). -/
def execX256Init (s : State) : Host.Outcome State Fault Refusal :=
  .next (respond [] (writeS256 Config.defaultState256 s))

/-- X256.SEED64 (R123). -/
def execX256Seed64 (seed : Word64) (s : State) : Host.Outcome State Fault Refusal :=
  .next (respond [] (writeS256 (seed256 seed) s))

/-- X256.SEEDRAW (R124): the all-zero vector is accepted. -/
def execX256Seedraw (w0 w1 w2 w3 : Word64) (s : State) : Host.Outcome State Fault Refusal :=
  .next (respond [] (writeS256 ⟨w0, w1, w2, w3⟩ s))

/-- X256.SEEDSEQ (R126). -/
def execX256Seedseq (b0 b1 b2 b3 b4 b5 b6 b7 : Word32) (s : State) : Host.Outcome State Fault Refusal :=
  .next (respond [] (writeS256 (pack256 b0 b1 b2 b3 b4 b5 b6 b7) s))

/-- X256.NEXT (R129). -/
def execX256Next (s : State) : Host.Outcome State Fault Refusal :=
  .next (respond (bytes64 (next256 s.s256).1) (writeS256 (next256 s.s256).2 s))

/-- X256.DISCARD (R132): one atomic step of the block however large `n` is. -/
def execX256Discard (n : Word64) (s : State) : Host.Outcome State Fault Refusal :=
  .next (respond [] (writeS256 (discard256 s.s256 n.toNat) s))

/-- X256.EQ (R134): the operand is the other instance's vector. -/
def execX256Eq (w0 w1 w2 w3 : Word64) (s : State) : Host.Outcome State Fault Refusal :=
  .next (respond [flagByte (eq256 s.s256 ⟨w0, w1, w2, w3⟩)] s)

/-- X256.MIN (R135). -/
def execX256Min (s : State) : Host.Outcome State Fault Refusal :=
  .next (respond (bytes64 0#64) s)

/-- X256.MAX (R136). -/
def execX256Max (s : State) : Host.Outcome State Fault Refusal :=
  .next (respond (bytes64 0xFFFFFFFFFFFFFFFF#64) s)

end Sys2Proof.Machine
end

