-- ==== Sys2Proof/Machine/Dispatch.lean ====
section
/-!
DEFINITION. The meaning of each command (30_encoding.md R66): one arm per constructor, each one call of its
meaning.
-/

namespace Sys2Proof.Machine

def exec (i : Instr) (s : State) : Host.Outcome State Fault Refusal :=
  match i with
  | .primMix x => Sys2Proof.Machine.execPrimMix x s
  | .primRotl64 x k => Sys2Proof.Machine.execPrimRotl64 x k s
  | .primRotl32 x k => Sys2Proof.Machine.execPrimRotl32 x k s
  | .primHigh32 x => Sys2Proof.Machine.execPrimHigh32 x s
  | .primLow32 x => Sys2Proof.Machine.execPrimLow32 x s
  | .primJoin32 hi lo => Sys2Proof.Machine.execPrimJoin32 hi lo s
  | .x256Init => Sys2Proof.Machine.execX256Init s
  | .x256Seed64 seed => Sys2Proof.Machine.execX256Seed64 seed s
  | .x256Seedraw w0 w1 w2 w3 => Sys2Proof.Machine.execX256Seedraw w0 w1 w2 w3 s
  | .x256Seedseq b0 b1 b2 b3 b4 b5 b6 b7 => Sys2Proof.Machine.execX256Seedseq b0 b1 b2 b3 b4 b5 b6 b7 s
  | .x256Next => Sys2Proof.Machine.execX256Next s
  | .x256Discard n => Sys2Proof.Machine.execX256Discard n s
  | .x256Eq w0 w1 w2 w3 => Sys2Proof.Machine.execX256Eq w0 w1 w2 w3 s
  | .x256Save => Sys2Proof.Machine.execX256Save s
  | .x256Load img => Sys2Proof.Machine.execX256Load img s
  | .x256Min => Sys2Proof.Machine.execX256Min s
  | .x256Max => Sys2Proof.Machine.execX256Max s
  | .x128Init => Sys2Proof.Machine.execX128Init s
  | .x128Seed64 seed => Sys2Proof.Machine.execX128Seed64 seed s
  | .x128Seedraw w0 w1 w2 w3 => Sys2Proof.Machine.execX128Seedraw w0 w1 w2 w3 s
  | .x128Seedseq b0 b1 b2 b3 => Sys2Proof.Machine.execX128Seedseq b0 b1 b2 b3 s
  | .x128Next => Sys2Proof.Machine.execX128Next s
  | .x128Discard n => Sys2Proof.Machine.execX128Discard n s
  | .x128Eq w0 w1 w2 w3 => Sys2Proof.Machine.execX128Eq w0 w1 w2 w3 s
  | .x128Save => Sys2Proof.Machine.execX128Save s
  | .x128Load img => Sys2Proof.Machine.execX128Load img s
  | .x128Min => Sys2Proof.Machine.execX128Min s
  | .x128Max => Sys2Proof.Machine.execX128Max s
  | .x128Seed32 seed => Sys2Proof.Machine.execX128Seed32 seed s
  | .x128Seedraw64 q0 q1 => Sys2Proof.Machine.execX128Seedraw64 q0 q1 s

end Sys2Proof.Machine
end

