-- ==== Sys2Proof/Machine/Transaction.lean ====
section
/-!
DEFINITION. One transaction of the block (00_scope.md R6): the decode procedure of 30_encoding.md R71 on a frame,
then the command, and what the block does with each thing the host can do (60_exceptions.md R231).
-/

namespace Sys2Proof.Machine

/-- A command frame: decoded, then executed, or answered with its error (R71, R226). -/
def transaction (bytes : List Byte) (s : State) : Host.Outcome State Fault Refusal :=
  match decodeFrame bytes with
  | .instr i => exec i s
  | .reject r => .next (raiseError (rejectStatus r) s)

/-- The next request of the host. With none pending the block does nothing (60_exceptions.md R228, log entry 5);
overlapping requests have no step (R231). -/
def serveHost (s : State) : Host.Outcome State Fault Refusal :=
  match s.requests with
  | [] => .next s
  | .frame bytes :: rest => transaction bytes (setRequests rest s)
  | .reset :: rest => .next (takeReset (setRequests rest s))
  | .overlap :: _ => .fault .overlappingRequests

end Sys2Proof.Machine
end

