-- ==== Sys2Proof/Machine/Step.lean ====
section
/-!
DEFINITION. One step of the machine: one transaction with the host (00_scope.md R6, 20_memory.md R49).
-/

namespace Sys2Proof.Machine

/-- The next state, or the stop, for the host's next request. -/
def step (s : State) : Host.Outcome State Fault Refusal := serveHost s

/-- `s` with the frame of a table word as the host's next request: the block fetches nothing (10_state.md R24), so
presenting a frame is how a command comes to run (log entry 9). -/
def State.withFetchWord (s : State) (nbits w : Nat) : State := presentFrame (tableFrame nbits w) s

end Sys2Proof.Machine
end

