-- ==== Sys2Proof/Machine/Assembler.lean ====
section
/-!
DEFINITION. The assembler syntax of 30_encoding.md R69 on lists of characters: printing a command, reading a line and
a program, and printing a response in a listing. The machine itself never sees text. The rule asks for hexadecimal and
allows decimal for `n` and `k`; the reader takes decimal for any integer, because the spec's own listings do (log
entry 10).
-/

namespace Sys2Proof.Machine

/-- One operand of a line: an integer, a vector in brackets, or an image in quotes. Integers carry the number of their
hexadecimal digits. -/
inductive AsmArg where
  | int (digits value : Nat)
  | vec (digits : Nat) (values : List Nat)
  | img (bytes : List Byte)
deriving DecidableEq, Repr

/-- `UNIT.MNEMONIC`, as the table of R66 spells it. -/
def mnemonic : Op → String
  | .primMix => "PRIM.MIX"
  | .primRotl64 => "PRIM.ROTL64"
  | .primRotl32 => "PRIM.ROTL32"
  | .primHigh32 => "PRIM.HIGH32"
  | .primLow32 => "PRIM.LOW32"
  | .primJoin32 => "PRIM.JOIN32"
  | .x256Init => "X256.INIT"
  | .x256Seed64 => "X256.SEED64"
  | .x256Seedraw => "X256.SEEDRAW"
  | .x256Seedseq => "X256.SEEDSEQ"
  | .x256Next => "X256.NEXT"
  | .x256Discard => "X256.DISCARD"
  | .x256Eq => "X256.EQ"
  | .x256Save => "X256.SAVE"
  | .x256Load => "X256.LOAD"
  | .x256Min => "X256.MIN"
  | .x256Max => "X256.MAX"
  | .x128Init => "X128.INIT"
  | .x128Seed64 => "X128.SEED64"
  | .x128Seedraw => "X128.SEEDRAW"
  | .x128Seedseq => "X128.SEEDSEQ"
  | .x128Next => "X128.NEXT"
  | .x128Discard => "X128.DISCARD"
  | .x128Eq => "X128.EQ"
  | .x128Save => "X128.SAVE"
  | .x128Load => "X128.LOAD"
  | .x128Min => "X128.MIN"
  | .x128Max => "X128.MAX"
  | .x128Seed32 => "X128.SEED32"
  | .x128Seedraw64 => "X128.SEEDRAW64"

/-- The command a mnemonic names. -/
def opOfMnemonic (name : List Char) : Option Op :=
  allOps.find? (fun o => (mnemonic o).toList == name)

/-- A 64-bit word, a 32-bit word and a byte as operands. -/
def arg64 (v : Word64) : AsmArg := .int 16 v.toNat
def arg32 (v : Word32) : AsmArg := .int 8 v.toNat
def arg8 (v : Byte) : AsmArg := .int 2 v.toNat

/-- Vectors of 64-bit and of 32-bit words as operands. -/
def vec64 (vs : List Word64) : AsmArg := .vec 16 (vs.map BitVec.toNat)
def vec32 (vs : List Word32) : AsmArg := .vec 8 (vs.map BitVec.toNat)

/-- The operands of a command, in the order of R66. -/
def asmArgs : Instr → List AsmArg
  | .primMix x => [arg64 x]
  | .primRotl64 x k => [arg64 x, arg8 k]
  | .primRotl32 x k => [arg32 x, arg8 k]
  | .primHigh32 x => [arg64 x]
  | .primLow32 x => [arg64 x]
  | .primJoin32 hi lo => [arg32 hi, arg32 lo]
  | .x256Init => []
  | .x256Seed64 seed => [arg64 seed]
  | .x256Seedraw w0 w1 w2 w3 => [vec64 [w0, w1, w2, w3]]
  | .x256Seedseq b0 b1 b2 b3 b4 b5 b6 b7 => [vec32 [b0, b1, b2, b3, b4, b5, b6, b7]]
  | .x256Next => []
  | .x256Discard n => [arg64 n]
  | .x256Eq w0 w1 w2 w3 => [vec64 [w0, w1, w2, w3]]
  | .x256Save => []
  | .x256Load img => [.img img]
  | .x256Min => []
  | .x256Max => []
  | .x128Init => []
  | .x128Seed64 seed => [arg64 seed]
  | .x128Seedraw w0 w1 w2 w3 => [vec32 [w0, w1, w2, w3]]
  | .x128Seedseq b0 b1 b2 b3 => [vec32 [b0, b1, b2, b3]]
  | .x128Next => []
  | .x128Discard n => [arg64 n]
  | .x128Eq w0 w1 w2 w3 => [vec32 [w0, w1, w2, w3]]
  | .x128Save => []
  | .x128Load img => [.img img]
  | .x128Min => []
  | .x128Max => []
  | .x128Seed32 seed => [arg32 seed]
  | .x128Seedraw64 q0 q1 => [vec64 [q0, q1]]

/-- A number as an unsigned word of `w` bits, if it is one. -/
def wordOf (w n : Nat) : Option (BitVec w) := if n < 2 ^ w then some (BitVec.ofNat w n) else none

/-- The command a row and the operands of a line mean; none where the operands are not the row's. -/
def instrOfArgs (o : Op) (args : List AsmArg) : Option Instr :=
  match o, args with
  | .primMix, [.int _ x] => (wordOf 64 x).map .primMix
  | .primRotl64, [.int _ x, .int _ k] => (wordOf 64 x).bind fun x => (wordOf 8 k).map (.primRotl64 x)
  | .primRotl32, [.int _ x, .int _ k] => (wordOf 32 x).bind fun x => (wordOf 8 k).map (.primRotl32 x)
  | .primHigh32, [.int _ x] => (wordOf 64 x).map .primHigh32
  | .primLow32, [.int _ x] => (wordOf 64 x).map .primLow32
  | .primJoin32, [.int _ h, .int _ l] => (wordOf 32 h).bind fun h => (wordOf 32 l).map (.primJoin32 h)
  | .x256Init, [] => some .x256Init
  | .x256Seed64, [.int _ s] => (wordOf 64 s).map .x256Seed64
  | .x256Seedraw, [.vec _ [a, b, c, d]] =>
    (wordOf 64 a).bind fun a => (wordOf 64 b).bind fun b => (wordOf 64 c).bind fun c =>
      (wordOf 64 d).map (.x256Seedraw a b c)
  | .x256Seedseq, [.vec _ [a, b, c, d, e, f, g, h]] =>
    (wordOf 32 a).bind fun a => (wordOf 32 b).bind fun b => (wordOf 32 c).bind fun c =>
      (wordOf 32 d).bind fun d => (wordOf 32 e).bind fun e => (wordOf 32 f).bind fun f =>
        (wordOf 32 g).bind fun g => (wordOf 32 h).map (.x256Seedseq a b c d e f g)
  | .x256Next, [] => some .x256Next
  | .x256Discard, [.int _ n] => (wordOf 64 n).map .x256Discard
  | .x256Eq, [.vec _ [a, b, c, d]] =>
    (wordOf 64 a).bind fun a => (wordOf 64 b).bind fun b => (wordOf 64 c).bind fun c =>
      (wordOf 64 d).map (.x256Eq a b c)
  | .x256Save, [] => some .x256Save
  | .x256Load, [.img img] => if img.length = 36 then some (.x256Load img) else none
  | .x256Min, [] => some .x256Min
  | .x256Max, [] => some .x256Max
  | .x128Init, [] => some .x128Init
  | .x128Seed64, [.int _ s] => (wordOf 64 s).map .x128Seed64
  | .x128Seedraw, [.vec _ [a, b, c, d]] =>
    (wordOf 32 a).bind fun a => (wordOf 32 b).bind fun b => (wordOf 32 c).bind fun c =>
      (wordOf 32 d).map (.x128Seedraw a b c)
  | .x128Seedseq, [.vec _ [a, b, c, d]] =>
    (wordOf 32 a).bind fun a => (wordOf 32 b).bind fun b => (wordOf 32 c).bind fun c =>
      (wordOf 32 d).map (.x128Seedseq a b c)
  | .x128Next, [] => some .x128Next
  | .x128Discard, [.int _ n] => (wordOf 64 n).map .x128Discard
  | .x128Eq, [.vec _ [a, b, c, d]] =>
    (wordOf 32 a).bind fun a => (wordOf 32 b).bind fun b => (wordOf 32 c).bind fun c =>
      (wordOf 32 d).map (.x128Eq a b c)
  | .x128Save, [] => some .x128Save
  | .x128Load, [.img img] => if img.length = 20 then some (.x128Load img) else none
  | .x128Min, [] => some .x128Min
  | .x128Max, [] => some .x128Max
  | .x128Seed32, [.int _ s] => (wordOf 32 s).map .x128Seed32
  | .x128Seedraw64, [.vec _ [a, b]] => (wordOf 64 a).bind fun a => (wordOf 64 b).map (.x128Seedraw64 a)
  | _, _ => none

/-! ### Writing -/

/-- The sixteen digits, each at the place of its value: as the spec's listings write them, and in lower case. -/
def digitRow : List Char := "0123456789ABCDEF".toList
def digitRowLower : List Char := "0123456789abcdef".toList

/-- The hexadecimal digit of a number below 16. -/
def hexChar (d : Nat) : Char := digitRow.getD d '0'

/-- The `digits` low hexadecimal digits of a number, the most significant first. -/
def hexDigits : Nat → Nat → List Char
  | 0, _ => []
  | digits + 1, v => hexDigits digits (v / 16) ++ [hexChar (v % 16)]

/-- `0x` and the digits. -/
def printHex (digits v : Nat) : List Char := '0' :: 'x' :: hexDigits digits v

/-- Texts with a separator between them. -/
def joinWith (sep : List Char) : List (List Char) → List Char
  | [] => []
  | [t] => t
  | t :: ts => t ++ sep ++ joinWith sep ts

def printArg : AsmArg → List Char
  | .int digits v => printHex digits v
  | .vec digits vs => '[' :: joinWith [',', ' '] (vs.map (printHex digits)) ++ [']']
  | .img bytes => '"' :: joinWith [' '] (bytes.map (fun b => hexDigits 2 b.toNat)) ++ ['"']

/-- A command as a line. -/
def printLine (i : Instr) : List Char :=
  (mnemonic (instrOp i)).toList ++
    match asmArgs i with
    | [] => []
    | args => ' ' :: joinWith [',', ' '] (args.map printArg)

/-- The name of an error response (60_exceptions.md R221). -/
def errorName (code : Byte) : Option String :=
  if code = 0x01#8 then some "E_ILLEGAL"
  else if code = 0x02#8 then some "E_LENGTH"
  else if code = 0x03#8 then some "E_ROTRANGE"
  else none

/-- A response as a listing shows it: the error's name, an image in quotes, the number of any other result, and
nothing for a response without a result. -/
def printResponse : List Byte → List Char
  | [] => []
  | code :: result =>
    match errorName code with
    | some name => " -> ".toList ++ name.toList
    | none =>
      if result.length = 0 then []
      else if 8 < result.length then " -> ".toList ++ printArg (.img result)
      else " -> ".toList ++ printHex (2 * result.length) (leValue result)

/-- A line of a listing: the command, then its response. -/
def printListing (i : Instr) (response : List Byte) : List Char := printLine i ++ printResponse response

/-! ### Reading -/

def isBlank (c : Char) : Bool := c == ' ' || c == '\t' || c == '\r'

/-- The text without the blanks at its ends. -/
def trim (t : List Char) : List Char := ((t.dropWhile isBlank).reverse.dropWhile isBlank).reverse

/-- The text before a comment. -/
def dropComment (t : List Char) : List Char := t.takeWhile (fun c => c != ';')

/-- The text before the arrow of a response. -/
def dropResponse : List Char → List Char
  | [] => []
  | '-' :: '>' :: _ => []
  | c :: t => c :: dropResponse t

/-- The texts between the commas that stand outside brackets. -/
def splitArgs : Bool → List Char → List Char → List (List Char)
  | _, text, [] => [text]
  | inside, text, c :: t =>
    if c = ',' ∧ inside = false then text :: splitArgs false [] t
    else splitArgs (if c = '[' then true else if c = ']' then false else inside) (text ++ [c]) t

/-- The value of a digit: its place in one of the two rows. -/
def digitValue (c : Char) : Option Nat := (digitRow.idxOf? c) <|> (digitRowLower.idxOf? c)

/-- The number a string of digits of a base means, after the digits that `acc` means. -/
def readDigits (base acc : Nat) : List Char → Option Nat
  | [] => some acc
  | c :: t =>
    match digitValue c with
    | some d => if d < base then readDigits base (acc * base + d) t else none
    | none => none

/-- An integer: hexadecimal after `0x`, else decimal. -/
def readNumber : List Char → Option Nat
  | '0' :: 'x' :: c :: t => readDigits 16 0 (c :: t)
  | c :: t => readDigits 10 0 (c :: t)
  | [] => none

/-- Every text of a list as an integer. -/
def readNumbers : List (List Char) → Option (List Nat)
  | [] => some []
  | t :: ts => (readNumber (trim t)).bind fun v => (readNumbers ts).map (v :: ·)

/-- Hexadecimal byte pairs. -/
def readPairs : List Char → Option (List Byte)
  | [] => some []
  | c :: d :: t => (readDigits 16 0 [c, d]).bind fun v => (readPairs t).map (BitVec.ofNat 8 v :: ·)
  | _ => none

/-- One operand. A bracket or a quote must be closed by its partner, which ends the operand. -/
def readArg (t : List Char) : Option AsmArg :=
  match trim t with
  | '[' :: body =>
    if body.getLast? = some ']' then (readNumbers (splitArgs false [] body.dropLast)).map (.vec 0) else none
  | '"' :: body =>
    if body.getLast? = some '"' then (readPairs (body.dropLast.filter (fun c => !isBlank c))).map .img else none
  | text => (readNumber text).map (.int 0)

/-- Every text of a list as an operand. -/
def readArgs : List (List Char) → Option (List AsmArg)
  | [] => some []
  | t :: ts => (readArg t).bind fun a => (readArgs ts).map (a :: ·)

/-- The command of a line. -/
def readLine (line : List Char) : Option Instr :=
  let text := trim (dropResponse (dropComment line))
  let name := text.takeWhile (fun c => !isBlank c)
  let rest := trim (text.dropWhile (fun c => !isBlank c))
  (opOfMnemonic name).bind fun o =>
    (readArgs (if rest = [] then [] else splitArgs false [] rest)).bind fun args => instrOfArgs o args

/-- The lines of a text. -/
def splitLines : List Char → List Char → List (List Char)
  | line, [] => [line]
  | line, c :: t => if c = '\n' then line :: splitLines [] t else splitLines (line ++ [c]) t

/-- Every line of a list as a command; lines with nothing on them are passed over. -/
def readLines : List (List Char) → Option (List Instr)
  | [] => some []
  | line :: lines =>
    if trim (dropComment line) = [] then readLines lines
    else (readLine line).bind fun i => (readLines lines).map (i :: ·)

/-- A program: one command per line. -/
def readProgram (text : String) : Option (List Instr) := readLines (splitLines [] text.toList)

/-- The frames a program stands for. -/
def assemble (text : String) : Option (List (List Byte)) := (readProgram text).map (List.map encode)

end Sys2Proof.Machine
end

