-- ==== Sys2Proof/Machine/Instances.lean ====
section
/-!
DEFINITION. A system of any number of blocks (60_exceptions.md R230): they have no identifier of their own and no
channel between them, so a system is a list of states, and one of them steps at a time, in an order that is the
outside's (20_memory.md R50, R52; log entry 7).
-/

namespace Sys2Proof.Machine

/-- The blocks of a system, told apart by their place only. -/
abbrev BlockSystem := List State

/-- One step of the block at place `n`; where no block stands at that place nothing happens. -/
def stepBlock (n : Nat) (sys : BlockSystem) : Host.Outcome BlockSystem Fault Refusal :=
  match sys[n]? with
  | none => .next sys
  | some s =>
    match step s with
    | .next t => .next (sys.set n t)
    | .fault r => .fault r
    | .refused r => .refused r

end Sys2Proof.Machine
end

