-- ==== Sys2Proof/Safety.lean ====
section
/-!
DEFINITION. What counts as a legal answer, as a run without errors, as a host that keeps to the protocol, and as an
engine in use: the terms in which claims about the machine are stated.
-/

namespace Sys2Proof.Machine

/-- The result lengths of 30_encoding.md R66. -/
def resultLengths : List Nat := [0, 1, 4, 8, 20, 36]

/-- A response frame the block can give (R62, 60_exceptions.md R221): `OK` and a result area of a length of the
map, or exactly one byte, the code of an error. -/
abbrev responseLegal : List Byte → Prop
  | [] => False
  | code :: result =>
    (code = 0x00#8 ∧ result.length ∈ resultLengths) ∨
      ((code = 0x01#8 ∨ code = 0x02#8 ∨ code = 0x03#8) ∧ result = [])

/-- Every response on record is legal. -/
abbrev State.answersLegal (s : State) : Prop := ∀ r ∈ s.responses, responseLegal r

/-- "no command of this program was refused" (60_exceptions.md R228): every response on record is `OK`. -/
abbrev State.noErrors (s : State) : Prop := ∀ r ∈ s.responses, r.head? = some 0x00#8

/-- The host keeps to the protocol in what it is going to present (60_exceptions.md R231): no two requests
overlap. -/
abbrev State.hostObeys (s : State) : Prop := Request.overlap ∉ s.requests

/-- The commands that read `s256` (10_state.md R22). -/
def readers256 : List Op := [.x256Next, .x256Discard, .x256Eq, .x256Save]

/-- The commands that write `s256` (10_state.md R22, R23). -/
def writers256 : List Op :=
  [.x256Init, .x256Seed64, .x256Seedraw, .x256Seedseq, .x256Next, .x256Discard, .x256Load]

/-- The commands that read `s128` (10_state.md R22). -/
def readers128 : List Op := [.x128Next, .x128Discard, .x128Eq, .x128Save]

/-- The commands that write `s128` (10_state.md R22, R23). -/
def writers128 : List Op :=
  [.x128Init, .x128Seed64, .x128Seed32, .x128Seedraw, .x128Seedraw64, .x128Seedseq, .x128Next, .x128Discard,
   .x128Load]

/-- `i` takes the vector `v` raw from the host: the commands of unit X256 that 70_reset_and_hazards.md R260
names. -/
def bringsRaw256 (i : Instr) (v : Vec4 64) : Prop :=
  i = .x256Seedraw v.w0 v.w1 v.w2 v.w3 ∨
    (∃ b0 b1 b2 b3 b4 b5 b6 b7,
      i = .x256Seedseq b0 b1 b2 b3 b4 b5 b6 b7 ∧ v = pack256 b0 b1 b2 b3 b4 b5 b6 b7) ∨
    (∃ img, i = .x256Load img ∧ deser256 img = some v)

/-- The same for the commands of unit X128 (R260). -/
def bringsRaw128 (i : Instr) (v : Vec4 32) : Prop :=
  i = .x128Seedraw v.w0 v.w1 v.w2 v.w3 ∨
    i = .x128Seedseq v.w0 v.w1 v.w2 v.w3 ∨
    (∃ q0 q1, i = .x128Seedraw64 q0 q1 ∧ v = unpack128 q0 q1) ∨
    (∃ img, i = .x128Load img ∧ deser128 img = some v)

/-- `i` makes the vector `v` of the 32-bit engine from an integer seed (43_xoshiro128pp.md R163, R165). -/
def seeds128 (i : Instr) (v : Vec4 32) : Prop :=
  (∃ seed, i = .x128Seed64 seed ∧ v = seed128 seed) ∨
    (∃ seed, i = .x128Seed32 seed ∧ v = seed128 (widen32 seed))

/-- A request in which the host "avoids the all-zero vector" (60_exceptions.md R231) of the 64-bit engine. -/
def Request.avoidsZero256 (r : Request) : Prop :=
  ∀ bytes i v, r = .frame bytes → decodeFrame bytes = .instr i → bringsRaw256 i v → v ≠ Vec4.zero 64

/-- The same for the 32-bit engine. Its integer seeds stand in the condition too: that none of them gives the
all-zero vector is 43_xoshiro128pp.md R183, which the spec has from an exhaustive evaluation and the model does not
assume. -/
def Request.avoidsZero128 (r : Request) : Prop :=
  ∀ bytes i v, r = .frame bytes → decodeFrame bytes = .instr i →
    (bringsRaw128 i v ∨ seeds128 i v) → v ≠ Vec4.zero 32

/-- "The state vector must never be the all-zero vector for the lifetime of correct operation" (10_state.md R30):
the 64-bit engine is not degenerate, and nothing the host is going to present makes it so. -/
def State.inUse256 (s : State) : Prop :=
  s.s256 ≠ Vec4.zero 64 ∧ ∀ r ∈ s.requests, r.avoidsZero256

/-- The same for the 32-bit engine. -/
def State.inUse128 (s : State) : Prop :=
  s.s128 ≠ Vec4.zero 32 ∧ ∀ r ∈ s.requests, r.avoidsZero128

end Sys2Proof.Machine
end

