-- ==== Sys2Proof/Certificates/Slice0/Obligations.lean ====
section
/-!
DEFINITION. The statements about the machine. The definitions under Sys2Proof.Spec write a rule's own formula down a
second time, from its words and not from the model's functions (sums of bytes, arithmetic modulo a power of two,
the assignments of a pseudocode block), so that a statement compares the model with the rule.
-/

namespace Sys2Proof.Spec

open Machine

/-- `OpRead(off, w/8)` (30_encoding.md R63): "sum for j = 0 .. n-1 of frame[1 + off + j] * 2^(8j)". -/
def readValue (w : Nat) (area : List Byte) (off : Nat) : BitVec w :=
  BitVec.ofNat w (((List.range (w / 8)).map (fun j => (area.getD (off + j) 0#8).toNat * 2 ^ (8 * j))).sum)

/-- `RspWrite` (R64): byte `j` is `v[8j+7:8j]`. -/
def byteList {w : Nat} (n : Nat) (v : BitVec w) : List Byte :=
  (List.range n).map (fun j => v.extractLsb' (8 * j) 8)

/-- `s` with one more response frame. -/
def answered (s : State) (r : List Byte) : State := { s with responses := s.responses ++ [r] }

/-- What the block does with a frame under opcode `op`, whose operand length is `n` (R65, R71): on `n` operand bytes
the state becomes `out area` of the state before, on any other number the response is `E_LENGTH` and nothing else
changes (60_exceptions.md R223, R224). The frame is gone from the host's requests in both cases. -/
def FrameRule (op : Byte) (n : Nat) (out : List Byte → State → State) : Prop :=
  ∀ (s : State) (rest : List Request) (area : List Byte), s.requests = .frame (op :: area) :: rest →
    step s = .next (if area.length = n then out area { s with requests := rest }
      else answered { s with requests := rest } [0x02#8])

/-- `mix` on numbers (40_splitmix64_mixer.md R90 in the arithmetic of 00_scope.md R10). -/
def mixValue (x : Nat) : Nat :=
  let z0 := (x + 0x9e3779b97f4a7c15) % 2 ^ 64
  let z1 := ((z0 ^^^ (z0 / 2 ^ 30)) * 0xbf58476d1ce4e5b9) % 2 ^ 64
  let z2 := ((z1 ^^^ (z1 / 2 ^ 27)) * 0x94d049bb133111eb) % 2 ^ 64
  z2 ^^^ (z2 / 2 ^ 31)

/-- `mix` on words. -/
def mixWord (x : Word64) : Word64 := BitVec.ofNat 64 (mixValue x.toNat)

/-- The state word of `seed128` made from a number below `2^32` (43_xoshiro128pp.md R162). -/
def seedHalf (h : Nat) : Word32 := BitVec.ofNat 32 (mixValue h % 2 ^ 32)

/-- `seed128` (R162). -/
def seedVector128 (seed : Word64) : Vec4 32 :=
  let t1 := mixValue seed.toNat
  let t2 := mixValue t1
  ⟨seedHalf (t1 / 2 ^ 32), seedHalf (t1 % 2 ^ 32), seedHalf (t2 / 2 ^ 32), seedHalf (t2 % 2 ^ 32)⟩

/-- `h ++ l` of two 32-bit words (R10, 41_rotate_and_halfword.md R104). -/
def joinWords (h l : Word32) : Word64 := BitVec.ofNat 64 (h.toNat * 2 ^ 32 + l.toNat)

/-- The pseudocode of 42_xoshiro256pp.md R128, statement by statement. -/
def nextStep256 (s : Vec4 64) : Word64 × Vec4 64 :=
  let sum := s.w0 + s.w3
  let result := ((sum <<< 23) ||| (sum >>> 41)) + s.w0
  let t := s.w1 <<< 17
  let s2 := s.w2 ^^^ s.w0
  let s3 := s.w3 ^^^ s.w1
  let s1 := s.w1 ^^^ s2
  let s0 := s.w0 ^^^ s3
  let s2' := s2 ^^^ t
  let s3' := (s3 <<< 45) ||| (s3 >>> 19)
  (result, ⟨s0, s1, s2', s3'⟩)

/-- The pseudocode of 43_xoshiro128pp.md R172, statement by statement. -/
def nextStep128 (s : Vec4 32) : Word32 × Vec4 32 :=
  let sum := s.w0 + s.w3
  let result := ((sum <<< 7) ||| (sum >>> 25)) + s.w0
  let t := s.w1 <<< 9
  let s2 := s.w2 ^^^ s.w0
  let s3 := s.w3 ^^^ s.w1
  let s1 := s.w1 ^^^ s2
  let s0 := s.w0 ^^^ s3
  let s2' := s2 ^^^ t
  let s3' := (s3 <<< 11) ||| (s3 >>> 21)
  (result, ⟨s0, s1, s2', s3'⟩)

/-- `n` steps, results dropped (42_xoshiro256pp.md R131, 43_xoshiro128pp.md R175). -/
def discardSpec256 (v : Vec4 64) (n : Nat) : Vec4 64 := (fun u => (nextStep256 u).2)^[n] v
def discardSpec128 (v : Vec4 32) (n : Nat) : Vec4 32 := (fun u => (nextStep128 u).2)^[n] v

/-- The image of a vector of `n`-byte words (44_serializer.md R200, R204). -/
def image {w : Nat} (n : Nat) (v : Vec4 w) : List Byte :=
  (List.finRange 4).flatMap (fun i => byteList n (v.word i) ++ [0x20#8])

/-- The words of an image of `n`-byte words, read at offsets `(n + 1) * i` (R202, R206). -/
def imageWords (w n : Nat) (img : List Byte) : Vec4 w :=
  ⟨readValue w img ((n + 1) * 0), readValue w img ((n + 1) * 1), readValue w img ((n + 1) * 2),
    readValue w img ((n + 1) * 3)⟩

/-- A list of commands executed one after another. -/
def execAll : List Instr → State → Host.Outcome State Fault Refusal
  | [], s => .next s
  | i :: is, s =>
    match exec i s with
    | .next t => execAll is t
    | .fault r => .fault r
    | .refused r => .refused r

/-- The map of 30_encoding.md R66: opcode, command, operand length, result length. -/
def opcodeMapPrim : List (Nat × Op × Nat × Nat) :=
  [(0x01, .primMix, 8, 8), (0x02, .primRotl64, 9, 8), (0x03, .primRotl32, 5, 4), (0x04, .primHigh32, 8, 4),
   (0x05, .primLow32, 8, 4), (0x06, .primJoin32, 8, 8)]

def opcodeMap256 : List (Nat × Op × Nat × Nat) :=
  [(0x40, .x256Init, 0, 0), (0x41, .x256Seed64, 8, 0), (0x42, .x256Seedraw, 32, 0), (0x43, .x256Seedseq, 32, 0),
   (0x44, .x256Next, 0, 8), (0x45, .x256Discard, 8, 0), (0x46, .x256Eq, 32, 1), (0x47, .x256Save, 0, 36),
   (0x48, .x256Load, 36, 0), (0x49, .x256Min, 0, 8), (0x4A, .x256Max, 0, 8)]

def opcodeMap128 : List (Nat × Op × Nat × Nat) :=
  [(0x80, .x128Init, 0, 0), (0x81, .x128Seed64, 8, 0), (0x82, .x128Seedraw, 16, 0), (0x83, .x128Seedseq, 16, 0),
   (0x84, .x128Next, 0, 4), (0x85, .x128Discard, 8, 0), (0x86, .x128Eq, 16, 1), (0x87, .x128Save, 0, 20),
   (0x88, .x128Load, 20, 0), (0x89, .x128Min, 0, 4), (0x8A, .x128Max, 0, 4), (0x8B, .x128Seed32, 4, 0),
   (0x8C, .x128Seedraw64, 16, 0)]

def opcodeMap : List (Nat × Op × Nat × Nat) := opcodeMapPrim ++ opcodeMap256 ++ opcodeMap128

/-- The row of the map for an opcode byte. -/
def rowOf (code : Byte) : Option (Nat × Op × Nat × Nat) := opcodeMap.find? (fun row => row.1 == code.toNat)

/-- The column `operands` of R66, `name:width@offset`, each operand read by the formula of R63. -/
def mapOperands (o : Op) (area : List Byte) : Instr :=
  let v64 := readValue 64 area
  let v32 := readValue 32 area
  let v8 := readValue 8 area
  match o with
  | .primMix => .primMix (v64 0)
  | .primRotl64 => .primRotl64 (v64 0) (v8 8)
  | .primRotl32 => .primRotl32 (v32 0) (v8 4)
  | .primHigh32 => .primHigh32 (v64 0)
  | .primLow32 => .primLow32 (v64 0)
  | .primJoin32 => .primJoin32 (v32 0) (v32 4)
  | .x256Init => .x256Init
  | .x256Seed64 => .x256Seed64 (v64 0)
  | .x256Seedraw => .x256Seedraw (v64 0) (v64 8) (v64 16) (v64 24)
  | .x256Seedseq => .x256Seedseq (v32 0) (v32 4) (v32 8) (v32 12) (v32 16) (v32 20) (v32 24) (v32 28)
  | .x256Next => .x256Next
  | .x256Discard => .x256Discard (v64 0)
  | .x256Eq => .x256Eq (v64 0) (v64 8) (v64 16) (v64 24)
  | .x256Save => .x256Save
  | .x256Load => .x256Load area
  | .x256Min => .x256Min
  | .x256Max => .x256Max
  | .x128Init => .x128Init
  | .x128Seed64 => .x128Seed64 (v64 0)
  | .x128Seedraw => .x128Seedraw (v32 0) (v32 4) (v32 8) (v32 12)
  | .x128Seedseq => .x128Seedseq (v32 0) (v32 4) (v32 8) (v32 12)
  | .x128Next => .x128Next
  | .x128Discard => .x128Discard (v64 0)
  | .x128Eq => .x128Eq (v32 0) (v32 4) (v32 8) (v32 12)
  | .x128Save => .x128Save
  | .x128Load => .x128Load area
  | .x128Min => .x128Min
  | .x128Max => .x128Max
  | .x128Seed32 => .x128Seed32 (v32 0)
  | .x128Seedraw64 => .x128Seedraw64 (v64 0) (v64 8)

/-- Row `o` is a rotation and the amount in its operand area is outside `1 .. W-1` (41_rotate_and_halfword.md R105,
60_exceptions.md R225): the amount is the byte at offset 8 of PRIM.ROTL64 and at offset 4 of PRIM.ROTL32. -/
abbrev amountOutOfRange (o : Op) (area : List Byte) : Prop :=
  (o = .primRotl64 ∧ ((readValue 8 area 8).toNat = 0 ∨ 64 ≤ (readValue 8 area 8).toNat)) ∨
    (o = .primRotl32 ∧ ((readValue 8 area 4).toNat = 0 ∨ 32 ≤ (readValue 8 area 4).toNat))

/-- The reserved values of byte 0 (R67). -/
abbrev reservedCode (code : Nat) : Prop :=
  code = 0x00 ∨ (0x07 ≤ code ∧ code ≤ 0x3F) ∨ (0x4B ≤ code ∧ code ≤ 0x7F) ∨ (0x8D ≤ code ∧ code ≤ 0xBF) ∨
    (0xC0 ≤ code ∧ code ≤ 0xFF)

end Sys2Proof.Spec

open Sys2Proof Sys2Proof.Machine Sys2Proof.Spec

/-! ### Unit PRIM -/

/-- R90, R91: the mixer, its command, its frame length and its three corner cases. -/
def Obligations.MixCommand : Prop :=
  (∀ (x : Word64) (s : State), exec (.primMix x) s = .next (answered s (0x00#8 :: byteList 8 (mixWord x)))) ∧
  FrameRule 0x01#8 8 (fun area s => answered s (0x00#8 :: byteList 8 (mixWord (readValue 64 area 0)))) ∧
  mixValue 0 = 0xE220A8397B1DCDAF ∧ mixValue 0xFFFFFFFFFFFFFFFF = 0xE4D971771B652C20 ∧
  mixValue 0x61C8864680B583EB = 0

/-- R100, R106: inside `1 .. 63` the formula of R100, whose bit `(i + k) mod 64` is bit `i` of `x`; outside it
`E_ROTRANGE`. -/
def Obligations.Rotl64Command : Prop :=
  (∀ (x : Word64) (k : Byte) (s : State), 0 < k.toNat → k.toNat < 64 →
    exec (.primRotl64 x k) s =
      .next (answered s (0x00#8 :: byteList 8 ((x <<< k.toNat) ||| (x >>> (64 - k.toNat)))))) ∧
  (∀ (x : Word64) (k : Byte) (s : State), (k.toNat = 0 ∨ 64 ≤ k.toNat) →
    exec (.primRotl64 x k) s = .next (answered s [0x03#8])) ∧
  (∀ (x : Word64) (k i : Nat), 0 < k → k < 64 → i < 64 →
    ((x <<< k) ||| (x >>> (64 - k))).getLsbD ((i + k) % 64) = x.getLsbD i) ∧
  FrameRule 0x02#8 9 (fun area s =>
    let x := readValue 64 area 0
    let k := (readValue 8 area 8).toNat
    if k = 0 ∨ 64 ≤ k then answered s [0x03#8]
    else answered s (0x00#8 :: byteList 8 ((x <<< k) ||| (x >>> (64 - k)))))

/-- R101, R107: the same at 32 bits; `k = 32` is outside the domain. -/
def Obligations.Rotl32Command : Prop :=
  (∀ (x : Word32) (k : Byte) (s : State), 0 < k.toNat → k.toNat < 32 →
    exec (.primRotl32 x k) s =
      .next (answered s (0x00#8 :: byteList 4 ((x <<< k.toNat) ||| (x >>> (32 - k.toNat)))))) ∧
  (∀ (x : Word32) (k : Byte) (s : State), (k.toNat = 0 ∨ 32 ≤ k.toNat) →
    exec (.primRotl32 x k) s = .next (answered s [0x03#8])) ∧
  (∀ (x : Word32) (k i : Nat), 0 < k → k < 32 → i < 32 →
    ((x <<< k) ||| (x >>> (32 - k))).getLsbD ((i + k) % 32) = x.getLsbD i) ∧
  FrameRule 0x03#8 5 (fun area s =>
    let x := readValue 32 area 0
    let k := (readValue 8 area 4).toNat
    if k = 0 ∨ 32 ≤ k then answered s [0x03#8]
    else answered s (0x00#8 :: byteList 4 ((x <<< k) ||| (x >>> (32 - k)))))

/-- R102, R103, R108, R109: the two halves of a 64-bit word. -/
def Obligations.HalfwordCommands : Prop :=
  (∀ (x : Word64) (s : State), exec (.primHigh32 x) s =
    .next (answered s (0x00#8 :: byteList 4 (BitVec.ofNat 32 (x.toNat / 2 ^ 32))))) ∧
  (∀ (x : Word64) (s : State), exec (.primLow32 x) s =
    .next (answered s (0x00#8 :: byteList 4 (BitVec.ofNat 32 (x.toNat % 2 ^ 32))))) ∧
  FrameRule 0x04#8 8 (fun area s =>
    answered s (0x00#8 :: byteList 4 (BitVec.ofNat 32 ((readValue 64 area 0).toNat / 2 ^ 32)))) ∧
  FrameRule 0x05#8 8 (fun area s =>
    answered s (0x00#8 :: byteList 4 (BitVec.ofNat 32 ((readValue 64 area 0).toNat % 2 ^ 32))))

/-- R104, R110: high half first in the operand, low half first in the bytes of the result. -/
def Obligations.JoinCommand : Prop :=
  (∀ (hi lo : Word32) (s : State), exec (.primJoin32 hi lo) s =
    .next (answered s (0x00#8 :: byteList 8 (joinWords hi lo)))) ∧
  FrameRule 0x06#8 8 (fun area s =>
    answered s (0x00#8 :: byteList 8 (joinWords (readValue 32 area 0) (readValue 32 area 4))))

/-! ### Construction and seeding -/

/-- R121, R161: the vector of the unit takes its default, which is not all-zero, and the other unit's is untouched. -/
def Obligations.InitCommands : Prop :=
  (∀ s : State, exec .x256Init s = .next (answered { s with s256 := Config.defaultState256 } [0x00#8])) ∧
  (∀ s : State, exec .x128Init s = .next (answered { s with s128 := Config.defaultState128 } [0x00#8])) ∧
  Config.defaultState256 ≠ Vec4.zero 64 ∧ Config.defaultState128 ≠ Vec4.zero 32 ∧
  FrameRule 0x40#8 0 (fun _ s => answered { s with s256 := Config.defaultState256 } [0x00#8]) ∧
  FrameRule 0x80#8 0 (fun _ s => answered { s with s128 := Config.defaultState128 } [0x00#8])

/-- R122, R123: word `k` is the mixer applied `k + 2` times; the vector is never all-zero. -/
def Obligations.Seed64Command256 : Prop :=
  (∀ (seed : Word64) (s : State), exec (.x256Seed64 seed) s =
    .next (answered { s with s256 := ⟨mixWord^[2] seed, mixWord^[3] seed, mixWord^[4] seed, mixWord^[5] seed⟩ }
      [0x00#8])) ∧
  (∀ seed : Word64,
    (⟨mixWord^[2] seed, mixWord^[3] seed, mixWord^[4] seed, mixWord^[5] seed⟩ : Vec4 64) ≠ Vec4.zero 64) ∧
  FrameRule 0x41#8 8 (fun area s =>
    let seed := readValue 64 area 0
    answered { s with s256 := ⟨mixWord^[2] seed, mixWord^[3] seed, mixWord^[4] seed, mixWord^[5] seed⟩ } [0x00#8])

/-- R124: a direct copy, the all-zero array accepted like any other. -/
def Obligations.SeedrawCommand256 : Prop :=
  (∀ (w0 w1 w2 w3 : Word64) (s : State), exec (.x256Seedraw w0 w1 w2 w3) s =
    .next (answered { s with s256 := ⟨w0, w1, w2, w3⟩ } [0x00#8])) ∧
  FrameRule 0x42#8 32 (fun area s =>
    answered { s with s256 := ⟨readValue 64 area 0, readValue 64 area 8, readValue 64 area 16,
      readValue 64 area 24⟩ } [0x00#8])

/-- R125, R126: eight 32-bit words, the lower index the low half; as bytes, the state SEEDRAW gives. -/
def Obligations.SeedseqCommand256 : Prop :=
  (∀ (b0 b1 b2 b3 b4 b5 b6 b7 : Word32) (s : State), exec (.x256Seedseq b0 b1 b2 b3 b4 b5 b6 b7) s =
    .next (answered { s with s256 := ⟨joinWords b1 b0, joinWords b3 b2, joinWords b5 b4, joinWords b7 b6⟩ }
      [0x00#8])) ∧
  FrameRule 0x43#8 32 (fun area s =>
    answered { s with s256 := ⟨joinWords (readValue 32 area 4) (readValue 32 area 0),
      joinWords (readValue 32 area 12) (readValue 32 area 8), joinWords (readValue 32 area 20) (readValue 32 area 16),
      joinWords (readValue 32 area 28) (readValue 32 area 24)⟩ } [0x00#8]) ∧
  FrameRule 0x43#8 32 (fun area s =>
    answered { s with s256 := ⟨readValue 64 area 0, readValue 64 area 8, readValue 64 area 16,
      readValue 64 area 24⟩ } [0x00#8])

/-- R162 and the command of R163: the high half feeds the lower index, each mixer result keeps bits [31:0]. The
sentence of R163 that the vector is never all-zero rests on R183 and is not stated here. -/
def Obligations.Seed64Command128 : Prop :=
  (∀ (seed : Word64) (s : State), exec (.x128Seed64 seed) s =
    .next (answered { s with s128 := seedVector128 seed } [0x00#8])) ∧
  FrameRule 0x81#8 8 (fun area s =>
    answered { s with s128 := seedVector128 (readValue 64 area 0) } [0x00#8])

/-- R164 and the command of R165: the seed in both halves, then as a 64-bit seed. -/
def Obligations.Seed32Command128 : Prop :=
  (∀ (seed : Word32) (s : State), exec (.x128Seed32 seed) s =
    .next (answered { s with s128 := seedVector128 (joinWords seed seed) } [0x00#8])) ∧
  (∀ (seed : Word32) (s : State),
    exec (.x128Seed32 seed) s = exec (.x128Seed64 (BitVec.ofNat 64 (seed.toNat * 2 ^ 32 + seed.toNat))) s) ∧
  FrameRule 0x8B#8 4 (fun area s =>
    answered { s with s128 := seedVector128 (joinWords (readValue 32 area 0) (readValue 32 area 0)) } [0x00#8])

/-- R166, R170: direct copies of four 32-bit words; the two commands are the same function of their operand bytes. -/
def Obligations.RawSeedCommands128 : Prop :=
  (∀ (w0 w1 w2 w3 : Word32) (s : State), exec (.x128Seedraw w0 w1 w2 w3) s =
    .next (answered { s with s128 := ⟨w0, w1, w2, w3⟩ } [0x00#8])) ∧
  (∀ (b0 b1 b2 b3 : Word32) (s : State), exec (.x128Seedseq b0 b1 b2 b3) s =
    .next (answered { s with s128 := ⟨b0, b1, b2, b3⟩ } [0x00#8])) ∧
  FrameRule 0x82#8 16 (fun area s =>
    answered { s with s128 := ⟨readValue 32 area 0, readValue 32 area 4, readValue 32 area 8,
      readValue 32 area 12⟩ } [0x00#8]) ∧
  FrameRule 0x83#8 16 (fun area s =>
    answered { s with s128 := ⟨readValue 32 area 0, readValue 32 area 4, readValue 32 area 8,
      readValue 32 area 12⟩ } [0x00#8])

/-- R167, R168: low half first; as bytes, the state SEEDRAW gives. -/
def Obligations.Seedraw64Command128 : Prop :=
  (∀ (q0 q1 : Word64) (s : State), exec (.x128Seedraw64 q0 q1) s =
    .next (answered { s with s128 := ⟨BitVec.ofNat 32 (q0.toNat % 2 ^ 32), BitVec.ofNat 32 (q0.toNat / 2 ^ 32),
      BitVec.ofNat 32 (q1.toNat % 2 ^ 32), BitVec.ofNat 32 (q1.toNat / 2 ^ 32)⟩ } [0x00#8])) ∧
  FrameRule 0x8C#8 16 (fun area s =>
    answered { s with s128 := ⟨readValue 32 area 0, readValue 32 area 4, readValue 32 area 8,
      readValue 32 area 12⟩ } [0x00#8])

/-! ### Generation, discard, equality, range -/

/-- R128, R129: one step of the recurrence, the result from the state before it. -/
def Obligations.NextCommand256 : Prop :=
  (∀ s : State, exec .x256Next s =
    .next (answered { s with s256 := (nextStep256 s.s256).2 } (0x00#8 :: byteList 8 (nextStep256 s.s256).1))) ∧
  nextStep256 (Vec4.zero 64) = (0#64, Vec4.zero 64) ∧
  FrameRule 0x44#8 0 (fun _ s =>
    answered { s with s256 := (nextStep256 s.s256).2 } (0x00#8 :: byteList 8 (nextStep256 s.s256).1))

/-- R172, R173. -/
def Obligations.NextCommand128 : Prop :=
  (∀ s : State, exec .x128Next s =
    .next (answered { s with s128 := (nextStep128 s.s128).2 } (0x00#8 :: byteList 4 (nextStep128 s.s128).1))) ∧
  nextStep128 (Vec4.zero 32) = (0#32, Vec4.zero 32) ∧
  FrameRule 0x84#8 0 (fun _ s =>
    answered { s with s128 := (nextStep128 s.s128).2 } (0x00#8 :: byteList 4 (nextStep128 s.s128).1))

/-- The same step as simultaneous equations in the old words, both engines. The equations are the spec's own
inference ("The same step as simultaneous equations, ... [derived: from rule R128 by substitution]"). -/
def Obligations.NextAsSimultaneousEquations : Prop :=
  (∀ s : State, ∃ t, exec .x256Next s = .next t ∧
    t.responses = s.responses ++ [0x00#8 :: byteList 8
      ((((s.s256.w0 + s.s256.w3) <<< 23) ||| ((s.s256.w0 + s.s256.w3) >>> 41)) + s.s256.w0)] ∧
    t.s256.w0 = s.s256.w0 ^^^ s.s256.w3 ^^^ s.s256.w1 ∧
    t.s256.w1 = s.s256.w1 ^^^ s.s256.w2 ^^^ s.s256.w0 ∧
    t.s256.w2 = s.s256.w2 ^^^ s.s256.w0 ^^^ (s.s256.w1 <<< 17) ∧
    t.s256.w3 = (s.s256.w3 ^^^ s.s256.w1).rotateLeft 45) ∧
  (∀ s : State, ∃ t, exec .x128Next s = .next t ∧
    t.responses = s.responses ++ [0x00#8 :: byteList 4
      ((((s.s128.w0 + s.s128.w3) <<< 7) ||| ((s.s128.w0 + s.s128.w3) >>> 25)) + s.s128.w0)] ∧
    t.s128.w0 = s.s128.w0 ^^^ s.s128.w3 ^^^ s.s128.w1 ∧
    t.s128.w1 = s.s128.w1 ^^^ s.s128.w2 ^^^ s.s128.w0 ∧
    t.s128.w2 = s.s128.w2 ^^^ s.s128.w0 ^^^ (s.s128.w1 <<< 9) ∧
    t.s128.w3 = (s.s128.w3 ^^^ s.s128.w1).rotateLeft 11)

/-- R131, R132: `n` steps, each result discarded, in one command. -/
def Obligations.DiscardCommand256 : Prop :=
  (∀ (n : Word64) (s : State), exec (.x256Discard n) s =
    .next (answered { s with s256 := discardSpec256 s.s256 n.toNat } [0x00#8])) ∧
  FrameRule 0x45#8 8 (fun area s =>
    answered { s with s256 := discardSpec256 s.s256 (readValue 64 area 0).toNat } [0x00#8])

/-- R175, R176. -/
def Obligations.DiscardCommand128 : Prop :=
  (∀ (n : Word64) (s : State), exec (.x128Discard n) s =
    .next (answered { s with s128 := discardSpec128 s.s128 n.toNat } [0x00#8])) ∧
  FrameRule 0x85#8 8 (fun area s =>
    answered { s with s128 := discardSpec128 s.s128 (readValue 64 area 0).toNat } [0x00#8])

/-- R133, R134, R177, R178: 1 exactly when the four words are equal, and the state is not changed. -/
def Obligations.EqCommands : Prop :=
  (∀ (w0 w1 w2 w3 : Word64) (s : State), exec (.x256Eq w0 w1 w2 w3) s =
    .next (answered s [0x00#8, if s.s256 = ⟨w0, w1, w2, w3⟩ then 0x01#8 else 0x00#8])) ∧
  (∀ (w0 w1 w2 w3 : Word32) (s : State), exec (.x128Eq w0 w1 w2 w3) s =
    .next (answered s [0x00#8, if s.s128 = ⟨w0, w1, w2, w3⟩ then 0x01#8 else 0x00#8])) ∧
  FrameRule 0x46#8 32 (fun area s =>
    answered s [0x00#8, if s.s256 = ⟨readValue 64 area 0, readValue 64 area 8, readValue 64 area 16,
      readValue 64 area 24⟩ then 0x01#8 else 0x00#8]) ∧
  FrameRule 0x86#8 16 (fun area s =>
    answered s [0x00#8, if s.s128 = ⟨readValue 32 area 0, readValue 32 area 4, readValue 32 area 8,
      readValue 32 area 12⟩ then 0x01#8 else 0x00#8])

/-- R135, R136, R179, R180: constants. -/
def Obligations.RangeCommands : Prop :=
  (∀ s : State, exec .x256Min s = .next (answered s (0x00#8 :: List.replicate 8 0x00#8))) ∧
  (∀ s : State, exec .x256Max s = .next (answered s (0x00#8 :: List.replicate 8 0xFF#8))) ∧
  (∀ s : State, exec .x128Min s = .next (answered s (0x00#8 :: List.replicate 4 0x00#8))) ∧
  (∀ s : State, exec .x128Max s = .next (answered s (0x00#8 :: List.replicate 4 0xFF#8))) ∧
  FrameRule 0x49#8 0 (fun _ s => answered s (0x00#8 :: List.replicate 8 0x00#8)) ∧
  FrameRule 0x4A#8 0 (fun _ s => answered s (0x00#8 :: List.replicate 8 0xFF#8)) ∧
  FrameRule 0x89#8 0 (fun _ s => answered s (0x00#8 :: List.replicate 4 0x00#8)) ∧
  FrameRule 0x8A#8 0 (fun _ s => answered s (0x00#8 :: List.replicate 4 0xFF#8))

/-! ### Serialization -/

/-- R200, R201, R204, R205: the image of the vector, four separators; the state is not changed. -/
def Obligations.SaveCommands : Prop :=
  (∀ s : State, exec .x256Save s = .next (answered s (0x00#8 :: image 8 s.s256))) ∧
  (∀ s : State, exec .x128Save s = .next (answered s (0x00#8 :: image 4 s.s128))) ∧
  (∀ v : Vec4 64, (image 8 v).length = 36) ∧ (∀ v : Vec4 32, (image 4 v).length = 20) ∧
  FrameRule 0x47#8 0 (fun _ s => answered s (0x00#8 :: image 8 s.s256)) ∧
  FrameRule 0x87#8 0 (fun _ s => answered s (0x00#8 :: image 4 s.s128))

/-- R202, R203, R206, R207, R210: the words at offsets `9i` (`5i`), separators ignored; a wrong byte count is a wrong
frame length, answered `E_LENGTH`, and writes nothing. -/
def Obligations.LoadCommands : Prop :=
  (∀ (img : List Byte) (s : State), img.length = 36 →
    exec (.x256Load img) s = .next (answered { s with s256 := imageWords 64 8 img } [0x00#8])) ∧
  (∀ (img : List Byte) (s : State), img.length = 20 →
    exec (.x128Load img) s = .next (answered { s with s128 := imageWords 32 4 img } [0x00#8])) ∧
  FrameRule 0x48#8 36 (fun area s => answered { s with s256 := imageWords 64 8 area } [0x00#8]) ∧
  FrameRule 0x88#8 20 (fun area s => answered { s with s128 := imageWords 32 4 area } [0x00#8])

/-- The model's choice for terms that no frame brings (log entry 11): LOAD of an image term of another length than
its unit's answers `E_LENGTH` and writes nothing, as the spec says of a frame with such an image. -/
def Obligations.LoadOfIllFormedImage : Prop :=
  (∀ (img : List Byte) (s : State), img.length ≠ 36 →
    (Instr.x256Load img).wf = false ∧ exec (.x256Load img) s = .next (answered s [0x02#8])) ∧
  (∀ (img : List Byte) (s : State), img.length ≠ 20 →
    (Instr.x128Load img).wf = false ∧ exec (.x128Load img) s = .next (answered s [0x02#8]))

/-- What SAVE of one state writes, LOAD in any other state reads back: the round trip of the images, which the spec
states as its own inference ("Round trip [derived: from rules R200, R202, R204, R206]"). -/
def Obligations.SaveThenLoadRestores : Prop :=
  (∀ s u : State, ∃ img t, exec .x256Save s = .next (answered s (0x00#8 :: img)) ∧
    exec (.x256Load img) u = .next t ∧ t.s256 = s.s256 ∧ t.s128 = u.s128) ∧
  (∀ s u : State, ∃ img t, exec .x128Save s = .next (answered s (0x00#8 :: img)) ∧
    exec (.x128Load img) u = .next t ∧ t.s128 = s.s128 ∧ t.s256 = u.s256)

/-- In the other direction SAVE gives the loaded image with its four separator bytes replaced by `0x20` (the second
sentence of the same inference). -/
def Obligations.LoadThenSaveNormalises : Prop :=
  (∀ (img : List Byte) (s : State), img.length = 36 → ∃ t out, exec (.x256Load img) s = .next t ∧
    exec .x256Save t = .next (answered t (0x00#8 :: out)) ∧ out.length = 36 ∧
    ∀ j, j < 36 → out[j]? = if j % 9 = 8 then some 0x20#8 else img[j]?) ∧
  (∀ (img : List Byte) (s : State), img.length = 20 → ∃ t out, exec (.x128Load img) s = .next t ∧
    exec .x128Save t = .next (answered t (0x00#8 :: out)) ∧ out.length = 20 ∧
    ∀ j, j < 20 → out[j]? = if j % 5 = 4 then some 0x20#8 else img[j]?)

/-! ### Reset and the host's port -/

/-- R36, R250, R251: reset gives both vectors their defaults, each not all-zero; a reset request does the same to
any state. -/
def Obligations.ResetGivesDefaults : Prop :=
  State.reset.s256 = Config.defaultState256 ∧ State.reset.s128 = Config.defaultState128 ∧
  State.reset.s256 ≠ Vec4.zero 64 ∧ State.reset.s128 ≠ Vec4.zero 32 ∧
  ∀ (s : State) (rest : List Request), s.requests = .reset :: rest →
    ∃ t, step s = .next t ∧ t.s256 = Config.defaultState256 ∧ t.s128 = Config.defaultState128

/-- The model's choices at the port: nothing has been presented or answered at reset (log entries 1, 2); without a
request nothing changes (log entry 5); a reset request gets no response and leaves the records (log entry 8);
overlapping requests have no step (log entry 3). -/
def Obligations.PortWithoutFrame : Prop :=
  (State.reset.requests = [] ∧ State.reset.responses = []) ∧
  (∀ s : State, s.requests = [] → step s = .next s) ∧
  (∀ (s : State) (rest : List Request), s.requests = .reset :: rest →
    ∃ t, step s = .next t ∧ t.requests = rest ∧ t.responses = s.responses) ∧
  (∀ (s : State) (rest : List Request), s.requests = .overlap :: rest → step s = .fault .overlappingRequests)

/-- INIT of both units, in either order, leaves both vectors as reset leaves them (the spec's own inference: "leaves
the block in the reset state [derived: ...]"). -/
def Obligations.InitOfBothUnitsIsReset : Prop :=
  ∀ s : State, ∃ t u, execAll [.x256Init, .x128Init] s = .next t ∧ execAll [.x128Init, .x256Init] s = .next u ∧
    t.s256 = State.reset.s256 ∧ t.s128 = State.reset.s128 ∧ u.s256 = State.reset.s256 ∧ u.s128 = State.reset.s128

/-! ### Decoding -/

/-- When the frame at the head of the requests decodes to a well-formed command, the step is that command on the
state from whose requests the frame is gone; nothing else is added around it. -/
def Obligations.StepRunsDecodedCommand : Prop :=
  ∀ (s : State) (bytes : List Byte) (rest : List Request) (i : Instr),
    s.requests = .frame bytes :: rest → decodeFrame bytes = .instr i → i.wf = true →
    step s = exec i { s with requests := rest }

/-- R71, R226: the decode procedure, its checks in their order. A frame that passes the first three executes the
command of its row on the operands of R66; it is answered `E_ROTRANGE`, and changes nothing else, exactly when that
command is a rotation whose amount is out of range, and `OK` otherwise. -/
def Obligations.DecodeProcedureOrder : Prop :=
  ∀ (s : State) (bytes : List Byte) (rest : List Request), s.requests = .frame bytes :: rest →
    (bytes = [] → step s = .next (answered { s with requests := rest } [0x02#8])) ∧
    (∀ code area, bytes = code :: area → rowOf code = none →
      step s = .next (answered { s with requests := rest } [0x01#8])) ∧
    (∀ code area row, bytes = code :: area → rowOf code = some row → area.length ≠ row.2.2.1 →
      step s = .next (answered { s with requests := rest } [0x02#8])) ∧
    (∀ code area row, bytes = code :: area → rowOf code = some row → area.length = row.2.2.1 →
      step s = exec (mapOperands row.2.1 area) { s with requests := rest } ∧
      (amountOutOfRange row.2.1 area → step s = .next (answered { s with requests := rest } [0x03#8])) ∧
      (¬ amountOutOfRange row.2.1 area → ∃ t result, step s = .next t ∧
        t.responses = s.responses ++ [0x00#8 :: result]))

/-- R67, R222: the 226 reserved values; any frame that begins with one is answered `E_ILLEGAL` whatever its length
and changes no state. -/
def Obligations.ReservedOpcodesAnswerIllegal : Prop :=
  (∀ code : Byte, opOfCode code = none ↔ reservedCode code.toNat) ∧
  ((List.range 256).filter (fun c => decide (reservedCode c))).length = 226 ∧
  ∀ (s : State) (code : Byte) (area : List Byte) (rest : List Request), reservedCode code.toNat →
    s.requests = .frame (code :: area) :: rest → step s = .next (answered { s with requests := rest } [0x01#8])

/-- R223: an empty frame, or a legal opcode under a length other than the required one, shorter or longer. -/
def Obligations.WrongLengthAnswersLength : Prop :=
  (∀ (s : State) (rest : List Request), s.requests = .frame [] :: rest →
    step s = .next (answered { s with requests := rest } [0x02#8])) ∧
  (∀ (s : State) (rest : List Request) (area : List Byte), ∀ row ∈ opcodeMap, area.length ≠ row.2.2.1 →
    s.requests = .frame (BitVec.ofNat 8 row.1 :: area) :: rest →
    step s = .next (answered { s with requests := rest } [0x02#8]))

/-- R63, R66: every row of the map with its operands at their offsets, no further command, and every opcode outside
the map reserved. -/
def Obligations.OpcodeMapRows : Prop :=
  (∀ row ∈ opcodeMap, opOfCode (BitVec.ofNat 8 row.1) = some row.2.1 ∧ opCode row.2.1 = BitVec.ofNat 8 row.1 ∧
    operandLength row.2.1 = row.2.2.1 ∧ resultLength row.2.1 = row.2.2.2) ∧
  (∀ row ∈ opcodeMap, ∀ area : List Byte, area.length = row.2.2.1 →
    decodeFrame (BitVec.ofNat 8 row.1 :: area) = .instr (mapOperands row.2.1 area)) ∧
  (∀ o : Op, ∃ row ∈ opcodeMap, row.2.1 = o) ∧
  (∀ (code : Byte) (area : List Byte), rowOf code = none → decodeFrame (code :: area) = .reject .reservedOpcode) ∧
  opcodeMapPrim.length = 6 ∧ opcodeMap256.length = 11 ∧ opcodeMap128.length = 13

/-- R61: the unit in bits 7:6, the function in bits 5:0, unit `11` reserved, unit `00` the six primitives, the
functions `0x00 .. 0x0A` the same operation in both engine units, and `0x0B` and `0x0C` of unit `10` the two extra
seeding paths. -/
def Obligations.OpcodeFields : Prop :=
  (∀ code : Byte, unitOfCode code =
    if code.toNat / 64 = 0 then .prim else if code.toNat / 64 = 1 then .x256
    else if code.toNat / 64 = 2 then .x128 else .reserved) ∧
  (∀ code : Byte, (funcOfCode code).toNat = code.toNat % 64) ∧
  (∀ code : Byte, unitOfCode code = .reserved → opOfCode code = none) ∧
  ([(Op.x256Init, Op.x128Init), (.x256Seed64, .x128Seed64), (.x256Seedraw, .x128Seedraw),
    (.x256Seedseq, .x128Seedseq), (.x256Next, .x128Next), (.x256Discard, .x128Discard), (.x256Eq, .x128Eq),
    (.x256Save, .x128Save), (.x256Load, .x128Load), (.x256Min, .x128Min), (.x256Max, .x128Max)].map
      (fun p => (unitOfCode (opCode p.1), unitOfCode (opCode p.2), (funcOfCode (opCode p.1)).toNat,
        (funcOfCode (opCode p.2)).toNat)) =
    (List.range 11).map (fun f => (CmdUnit.x256, CmdUnit.x128, f, f))) ∧
  (unitOfCode (opCode .x128Seed32) = .x128 ∧ (funcOfCode (opCode .x128Seed32)).toNat = 0x0B) ∧
  (unitOfCode (opCode .x128Seedraw64) = .x128 ∧ (funcOfCode (opCode .x128Seedraw64)).toNat = 0x0C) ∧
  (∀ o ∈ [Op.primMix, .primRotl64, .primRotl32, .primHigh32, .primLow32, .primJoin32],
    unitOfCode (opCode o) = .prim)

/-- Decoding the frame of a well-formed command gives the command, with every operand at every value. -/
def Obligations.DecodeOfEncode : Prop :=
  ∀ i : Instr, i.wf = true → decodeFrame (encode i) = .instr i

/-- A frame that decodes is the frame of the command it decodes to, and that command is well-formed: no byte is
dropped and no two frames mean the same command. -/
def Obligations.EncodeOfDecode : Prop :=
  ∀ (bytes : List Byte) (i : Instr), decodeFrame bytes = .instr i → i.wf = true ∧ encode i = bytes

/-- Frames written out by hand from the map (the worked examples of 95_test_vectors.md V10, V11, V13, V25, V38, V43
and the frames of its P1 and P2). -/
def Obligations.SpelledFramesDecode : Prop :=
  decodeFrame [0x02#8, 0x01#8, 0x00#8, 0x00#8, 0x00#8, 0x00#8, 0x00#8, 0x00#8, 0x80#8, 0x01#8] =
    .instr (.primRotl64 0x8000000000000001#64 1#8) ∧
  decodeFrame [0x06#8, 0x67#8, 0x45#8, 0x23#8, 0x01#8, 0xEF#8, 0xCD#8, 0xAB#8, 0x89#8] =
    .instr (.primJoin32 0x01234567#32 0x89ABCDEF#32) ∧
  decodeFrame [0x41#8, 0x2A#8, 0x00#8, 0x00#8, 0x00#8, 0x00#8, 0x00#8, 0x00#8, 0x00#8] =
    .instr (.x256Seed64 0x2A#64) ∧
  decodeFrame [0x44#8] = .instr .x256Next ∧
  decodeFrame [0x83#8, 0x00#8, 0x00#8, 0x00#8, 0x00#8, 0x00#8, 0x00#8, 0x00#8, 0x00#8, 0x00#8, 0x00#8, 0x00#8,
    0x00#8, 0x01#8, 0x00#8, 0x00#8, 0x00#8] = .instr (.x128Seedseq 0#32 0#32 0#32 1#32) ∧
  decodeFrame [0x8B#8, 0x2A#8, 0x00#8, 0x00#8, 0x00#8] = .instr (.x128Seed32 0x2A#32)

/-- The assembler syntax (30_encoding.md R69) is unambiguous: the reader gives back every command that the printer
writes as a line, and two commands never share a line. That the printer writes hexadecimal digits of full width is the
model's choice (log entry 10). -/
def Obligations.ReaderInvertsPrinter : Prop :=
  (∀ i : Instr, i.wf = true → readLine (printLine i) = some i) ∧
  (∀ i j : Instr, i.wf = true → j.wf = true → printLine i = printLine j → i = j)

/-! ### The whole machine -/

/-- R62: exactly one response to every command frame, `OK` with the result length of the map or one status byte. -/
def Obligations.OneResponsePerFrame : Prop :=
  ∀ (s : State) (bytes : List Byte) (rest : List Request), s.requests = .frame bytes :: rest →
    ∃ t r, step s = .next t ∧ t.requests = rest ∧ t.responses = s.responses ++ [r] ∧
      ((∃ i result, decodeFrame bytes = .instr i ∧ r = 0x00#8 :: result ∧
          result.length = resultLength (instrOp i)) ∨
        (∃ code, code ≠ 0x00#8 ∧ r = [code]))

/-- R224: a frame answered by an error leaves both vectors as they were, and the response is the single status
byte. -/
def Obligations.ErrorResponseChangesNothing : Prop :=
  ∀ (s : State) (bytes : List Byte) (rest : List Request), s.requests = .frame bytes :: rest →
    ∃ t r, step s = .next t ∧ t.responses = s.responses ++ [r] ∧
      (r.head? ≠ some 0x00#8 → t = answered { s with requests := rest } r ∧ r.length = 1)

/-- R23: the complete list of what writes a state word. -/
def Obligations.WritersOfTheVectors : Prop :=
  ∀ s t : State, step s = .next t →
    (t.s256 ≠ s.s256 → (∃ rest, s.requests = .reset :: rest) ∨
      ∃ bytes rest i, s.requests = .frame bytes :: rest ∧ decodeFrame bytes = .instr i ∧
        instrOp i ∈ writers256) ∧
    (t.s128 ≠ s.s128 → (∃ rest, s.requests = .reset :: rest) ∨
      ∃ bytes rest i, s.requests = .frame bytes :: rest ∧ decodeFrame bytes = .instr i ∧
        instrOp i ∈ writers128)

/-- R22: the access table. A command that does not write a vector leaves it; a command that does not read a vector
gives the same other vector, the same response and, if it writes that vector, the same new value, whatever the
vector was. -/
def Obligations.AccessTable : Prop :=
  (∀ (i : Instr) (s : State) (v : Vec4 64), i.wf = true → ∃ t u, exec i s = .next t ∧
    exec i { s with s256 := v } = .next u ∧
    (instrOp i ∉ writers256 → t.s256 = s.s256 ∧ u.s256 = v) ∧
    (instrOp i ∉ readers256 → u.s128 = t.s128 ∧ u.responses = t.responses ∧
      (instrOp i ∈ writers256 → u.s256 = t.s256))) ∧
  (∀ (i : Instr) (s : State) (v : Vec4 32), i.wf = true → ∃ t u, exec i s = .next t ∧
    exec i { s with s128 := v } = .next u ∧
    (instrOp i ∉ writers128 → t.s128 = s.s128 ∧ u.s128 = v) ∧
    (instrOp i ∉ readers128 → u.s256 = t.s256 ∧ u.responses = t.responses ∧
      (instrOp i ∈ writers128 → u.s128 = t.s128)))

/-- The host's two records, which are the model's own fields (log entries 1 and 2), have no influence: under other
records a command gives the same vectors and the same response, and it leaves the requests alone. -/
def Obligations.RecordsHaveNoInfluence : Prop :=
  ∀ (i : Instr) (s : State) (rq : List Request) (rs : List (List Byte)), ∃ t r, exec i s = .next t ∧
    t.requests = s.requests ∧ t.responses = s.responses ++ [r] ∧
    exec i { s with requests := rq, responses := rs } =
      .next { t with requests := rq, responses := rs ++ [r] }

/-- Every step keeps the answers legal (30_encoding.md R62, 60_exceptions.md R221: "Codes 0x04 .. 0xFF are never
produced"; result lengths of R66). -/
def Obligations.AnswersStayLegal : Prop :=
  ∀ s t : State, s.answersLegal → step s = .next t → t.answersLegal

/-- A 64-bit engine in use stays in use: while the host avoids the all-zero vector in SEEDRAW, SEEDSEQ and LOAD
(60_exceptions.md R231, 70_reset_and_hazards.md R260), no step, reset and integer seeds included, makes it
degenerate. -/
def Obligations.Engine256StaysInUse : Prop :=
  ∀ s t : State, s.inUse256 → step s = .next t → t.inUse256

/-- The same for the 32-bit engine, with its integer seeds in the host's condition (see `Request.avoidsZero128`). -/
def Obligations.Engine128StaysInUse : Prop :=
  ∀ s t : State, s.inUse128 → step s = .next t → t.inUse128

/-- The three invariants hold at reset. -/
def Obligations.InvariantsAtReset : Prop :=
  State.reset.answersLegal ∧ State.reset.inUse256 ∧ State.reset.inUse128

/-- From any state whose requests begin with frames, whatever their bytes, as many steps as there are frames answer
each of them once, in order, with a legal response. -/
def Obligations.EveryFrameIsAnswered : Prop :=
  ∀ (frames : List (List Byte)) (tail : List Request) (s : State), s.requests = frames.map .frame ++ tail →
    ∃ t rs, Host.Core.run core frames.length s = .next t ∧ t.requests = tail ∧ t.responses = s.responses ++ rs ∧
      rs.length = frames.length ∧ ∀ r ∈ rs, responseLegal r

/-- A block whose host keeps to the protocol never stops: any number of steps complete, whatever the frames hold, and
the host still obeys (60_exceptions.md R228: after an error response the block "accepts the next frame normally"; that
the block stops otherwise is log entry 3). -/
def Obligations.ObeyedProtocolNeverStops : Prop :=
  ∀ (k : Nat) (s : State), s.hostObeys → ∃ t, Host.Core.run core k s = .next t ∧ t.hostObeys

/-- "no command of this program was refused" (60_exceptions.md R228) survives a frame exactly when the frame decodes
to a command whose rotate amount, if it has one, is in range: the complete list of what is answered by an error
(R222, R223, R225). -/
def Obligations.ErrorFreeFrames : Prop :=
  ∀ (s : State) (bytes : List Byte) (rest : List Request), s.requests = .frame bytes :: rest →
    ∃ t, step s = .next t ∧ (t.noErrors ↔ s.noErrors ∧ ∃ i, decodeFrame bytes = .instr i ∧
      (∀ x k, i = .primRotl64 x k → 0 < k.toNat ∧ k.toNat < 64) ∧
      (∀ x k, i = .primRotl32 x k → 0 < k.toNat ∧ k.toNat < 32))

/-- R230: two blocks share no state. A step of one block is its step alone and leaves every other block as it was,
and steps of two blocks give the same system in either order. -/
def Obligations.BlocksShareNothing : Prop :=
  (∀ (sys : BlockSystem) (n : Nat) (s t : State), sys[n]? = some s → step s = .next t →
    ∃ after, stepBlock n sys = .next after ∧ after.length = sys.length ∧ after[n]? = some t ∧
      ∀ m, m ≠ n → after[m]? = sys[m]?) ∧
  (∀ (sys : BlockSystem) (m n : Nat) (s t s' t' : State), m ≠ n → sys[m]? = some s → step s = .next s' →
    sys[n]? = some t → step t = .next t' →
    ∃ u v both, stepBlock m sys = .next u ∧ stepBlock n u = .next both ∧ stepBlock n sys = .next v ∧
      stepBlock m v = .next both)

/-! ### Properties the spec derives -/

/-- The step of each engine is a bijection of its vectors and maps only the all-zero vector to the all-zero vector
(the spec's own inference: "The generation step is a bijection of the state space, ... [derived: ...]"). -/
def Obligations.NextIsBijective : Prop :=
  Function.Bijective (fun v => (next256 v).2) ∧ Function.Bijective (fun v => (next128 v).2) ∧
  (∀ s t : State, exec .x256Next s = .next t → (t.s256 = Vec4.zero 64 ↔ s.s256 = Vec4.zero 64)) ∧
  (∀ s t : State, exec .x128Next s = .next t → (t.s128 = Vec4.zero 32 ↔ s.s128 = Vec4.zero 32))

/-- From the all-zero vector NEXT answers 0 and DISCARD of any count changes nothing, in both units (the spec's own
inference: "From the all-zero vector, `NEXT` returns 0 and leaves the vector all-zero"). -/
def Obligations.AllZeroIsAbsorbing : Prop :=
  (∀ s : State, s.s256 = Vec4.zero 64 →
    exec .x256Next s = .next (answered s (0x00#8 :: List.replicate 8 0x00#8)) ∧
    ∀ n, exec (.x256Discard n) s = .next (answered s [0x00#8])) ∧
  (∀ s : State, s.s128 = Vec4.zero 32 →
    exec .x128Next s = .next (answered s (0x00#8 :: List.replicate 4 0x00#8)) ∧
    ∀ n, exec (.x128Discard n) s = .next (answered s [0x00#8]))

/-- The mixer is a bijection whose only zero is `0x61C8864680B583EB` (the spec's own inference: "Properties of `mix`
a model may prove [derived: from rule R90]"). -/
def Obligations.MixIsBijective : Prop :=
  Function.Bijective mix ∧ (∀ x : Word64, mix x = 0#64 ↔ x = 0x61C8864680B583EB#64) ∧
  mix (mix 0#64) ≠ mix (0#64 + 0x9e3779b97f4a7c15#64)

/-- After SEED64 of the 64-bit engine no sequence of NEXT and DISCARD reaches the all-zero vector, and no two
consecutive seeded words are both 0 (the spec's own inference: "`X256.SEED64` never produces the all-zero state
[derived: ...]"). -/
def Obligations.SeededEngineNeverDegenerates : Prop :=
  ∀ (s : State) (seed : Word64), ∃ t, exec (.x256Seed64 seed) s = .next t ∧
    ¬ (t.s256.w0 = 0#64 ∧ t.s256.w1 = 0#64) ∧ ¬ (t.s256.w1 = 0#64 ∧ t.s256.w2 = 0#64) ∧
    ¬ (t.s256.w2 = 0#64 ∧ t.s256.w3 = 0#64) ∧
    ∀ is : List Instr, (∀ i ∈ is, i = .x256Next ∨ ∃ n, i = .x256Discard n) →
      ∃ u, execAll is t = .next u ∧ u.s256 ≠ Vec4.zero 64

/-- `discard(n)` then `next()` leaves the vector and gives the answer of `next()` called `n + 1` times, for every
count and in both units (the property S4 of 95_test_vectors.md section 1). -/
def Obligations.DiscardThenNext : Prop :=
  (∀ (s : State) (n : Word64), ∃ t u, execAll [.x256Discard n, .x256Next] s = .next t ∧
    execAll (List.replicate (n.toNat + 1) .x256Next) s = .next u ∧ t.s256 = u.s256 ∧
    t.responses.getLast? = u.responses.getLast?) ∧
  (∀ (s : State) (n : Word64), ∃ t u, execAll [.x128Discard n, .x128Next] s = .next t ∧
    execAll (List.replicate (n.toNat + 1) .x128Next) s = .next u ∧ t.s128 = u.s128 ∧
    t.responses.getLast? = u.responses.getLast?)

/-- The same operand bytes under SEEDRAW and SEEDSEQ, and under SEEDRAW, SEEDSEQ and SEEDRAW64, give the same step;
and an image without its separators is the operand area of the SEEDRAW that restores it (the spec's own inference:
"Consequence of rules R41 and R42 [derived: ...]"). -/
def Obligations.SameBytesSameState : Prop :=
  (∀ (s : State) (area : List Byte) (rest : List Request),
    step { s with requests := .frame (0x42#8 :: area) :: rest } =
      step { s with requests := .frame (0x43#8 :: area) :: rest }) ∧
  (∀ (s : State) (area : List Byte) (rest : List Request),
    step { s with requests := .frame (0x82#8 :: area) :: rest } =
      step { s with requests := .frame (0x83#8 :: area) :: rest } ∧
    step { s with requests := .frame (0x82#8 :: area) :: rest } =
      step { s with requests := .frame (0x8C#8 :: area) :: rest }) ∧
  (∀ v : Vec4 64, encode (.x256Seedraw v.w0 v.w1 v.w2 v.w3) =
    0x42#8 :: (List.finRange 4).flatMap (fun i => ((ser256 v).drop (9 * i)).take 8)) ∧
  (∀ v : Vec4 32, encode (.x128Seedraw v.w0 v.w1 v.w2 v.w3) =
    0x82#8 :: (List.finRange 4).flatMap (fun i => ((ser128 v).drop (5 * i)).take 4))

/-- The identities of the half-word helpers and of the rotations (the spec's own inference: "Identities a model may
prove [derived: from rules R100 to R104]"; that a rotation keeps the number of set bits is not stated here). -/
def Obligations.HalfwordAndRotationIdentities : Prop :=
  (∀ x : Word64, join32 (high32 x) (low32 x) = x) ∧
  (∀ h l : Word32, high32 (join32 h l) = h ∧ low32 (join32 h l) = l) ∧
  (∀ (x : Word64) (k : Nat) (h : 0 < k ∧ k < 64) (h' : 0 < 64 - k ∧ 64 - k < 64),
    rotl64 (rotl64 x k h) (64 - k) h' = x ∧ rotl64 0#64 k h = 0#64 ∧
      rotl64 (BitVec.allOnes 64) k h = BitVec.allOnes 64) ∧
  (∀ (x : Word32) (k : Nat) (h : 0 < k ∧ k < 32) (h' : 0 < 32 - k ∧ 32 - k < 32),
    rotl32 (rotl32 x k h) (32 - k) h' = x ∧ rotl32 0#32 k h = 0#32 ∧
      rotl32 (BitVec.allOnes 32) k h = BitVec.allOnes 32) ∧
  (∀ (x : Word64) (h : 0 < 32 ∧ 32 < 64), rotl64 x 32 h = join32 (low32 x) (high32 x))
end

