-- ==== Sys2Proof/Laws/Bytes.lean ====
section
/-!
SUPPORT. Byte assembly (20_memory.md R41, 30_encoding.md R63, R64): writing a word and reading it back, reading
bytes and writing them back, and the explicit forms of the rules.
-/

namespace Sys2Proof.Machine

@[simp] theorem rspWrite_length {w : Nat} (n : Nat) (v : BitVec w) : (rspWrite n v).length = n := by
  induction n generalizing v with
  | zero => rfl
  | succ n ih => simp [rspWrite, ih]

@[simp] theorem bytes64_length (v : Word64) : (bytes64 v).length = 8 := rspWrite_length 8 v

@[simp] theorem bytes32_length (v : Word32) : (bytes32 v).length = 4 := rspWrite_length 4 v

theorem leValue_rspWrite {w : Nat} (n : Nat) (v : BitVec w) : leValue (rspWrite n v) = v.toNat % 256 ^ n := by
  induction n generalizing v with
  | zero => simp [rspWrite, leValue, Nat.mod_one]
  | succ n ih =>
    simp only [rspWrite, leValue, ih, BitVec.toNat_setWidth, BitVec.toNat_ushiftRight, Nat.shiftRight_eq_div_pow]
    rw [Nat.pow_succ' (m := 256), Nat.mod_mul (a := 256)]

theorem leValue_lt (bs : List Byte) : leValue bs < 256 ^ bs.length := by
  induction bs with
  | nil => simp [leValue]
  | cons b bs ih =>
    have := b.isLt
    simp only [leValue, List.length_cons, Nat.pow_succ]
    omega

/-- The bytes of the value of a byte string are that byte string. -/
theorem rspWrite_leValue {w : Nat} (bs : List Byte) (v : BitVec w) (hw : v.toNat = leValue bs) :
    rspWrite bs.length v = bs := by
  induction bs generalizing v with
  | nil => rfl
  | cons b bs ih =>
    simp only [leValue] at hw
    have hb := b.isLt
    simp only [List.length_cons, rspWrite, List.cons.injEq]
    constructor
    · apply BitVec.eq_of_toNat_eq
      rw [BitVec.toNat_setWidth, hw]
      omega
    · apply ih
      rw [BitVec.toNat_ushiftRight, hw, Nat.shiftRight_eq_div_pow]
      omega

/-- Reading where a word was written gives the word. -/
theorem opRead_of_chunk {w : Nat} {area : List Byte} {off : Nat} (v : BitVec w) (hw : w = 8 * (w / 8))
    (h : (area.drop off).take (w / 8) = rspWrite (w / 8) v) : opRead w area off = v := by
  apply BitVec.eq_of_toNat_eq
  rw [opRead, h, BitVec.toNat_ofNat, leValue_rspWrite]
  have h256 : (256 : Nat) ^ (w / 8) = 2 ^ w := by
    conv_rhs => rw [hw]
    rw [Nat.pow_mul]
  rw [h256, Nat.mod_mod, Nat.mod_eq_of_lt v.isLt]

/-- Writing what was read gives the bytes that were read. -/
theorem rspWrite_opRead {w : Nat} {area : List Byte} {off : Nat} (hw : w = 8 * (w / 8))
    (h : off + w / 8 ≤ area.length) : rspWrite (w / 8) (opRead w area off) = (area.drop off).take (w / 8) := by
  have hlen : ((area.drop off).take (w / 8)).length = w / 8 := by simp; omega
  have hlt := leValue_lt ((area.drop off).take (w / 8))
  have h256 : (256 : Nat) ^ (w / 8) = 2 ^ w := by
    conv_rhs => rw [hw]
    rw [Nat.pow_mul]
  rw [hlen, h256] at hlt
  have := rspWrite_leValue ((area.drop off).take (w / 8)) (opRead w area off)
    (by rw [opRead, BitVec.toNat_ofNat, Nat.mod_eq_of_lt hlt])
  rwa [hlen] at this

theorem bytes64_opRead {area : List Byte} {off : Nat} (h : off + 8 ≤ area.length) :
    bytes64 (opRead 64 area off) = (area.drop off).take 8 := rspWrite_opRead (w := 64) rfl h

theorem bytes32_opRead {area : List Byte} {off : Nat} (h : off + 4 ≤ area.length) :
    bytes32 (opRead 32 area off) = (area.drop off).take 4 := rspWrite_opRead (w := 32) rfl h

theorem opRead64_at (pre post : List Byte) (v : Word64) (off : Nat) (h : off = pre.length) :
    opRead 64 (pre ++ (bytes64 v ++ post)) off = v := by
  apply opRead_of_chunk v rfl
  subst h
  simp [bytes64]

theorem opRead32_at (pre post : List Byte) (v : Word32) (off : Nat) (h : off = pre.length) :
    opRead 32 (pre ++ (bytes32 v ++ post)) off = v := by
  apply opRead_of_chunk v rfl
  subst h
  simp [bytes32]

theorem opRead8_at (pre post : List Byte) (b : Byte) (off : Nat) (h : off = pre.length) :
    opRead 8 (pre ++ (b :: post)) off = b := by
  apply opRead_of_chunk b rfl
  subst h
  simp [rspWrite]

/-- R64 in its explicit form: byte `j` is bits `8j+7 .. 8j`. -/
theorem rspWrite_eq_map {w : Nat} (n : Nat) (v : BitVec w) :
    rspWrite n v = (List.range n).map (fun j => v.extractLsb' (8 * j) 8) := by
  induction n generalizing v with
  | zero => rfl
  | succ n ih =>
    rw [rspWrite, ih, List.range_succ_eq_map, List.map_cons, List.map_map]
    congr 1
    · apply BitVec.eq_of_getLsbD_eq
      intro i hi
      simp [hi]
    · apply List.map_congr_left
      intro j _
      apply BitVec.eq_of_getLsbD_eq
      intro i hi
      simp only [BitVec.getLsbD_extractLsb', BitVec.getLsbD_ushiftRight, Function.comp]
      congr 2
      omega

/-- R63 in its explicit form: the sum of the bytes under their weights. -/
theorem leValue_eq_sum (area : List Byte) (off n : Nat) :
    leValue ((area.drop off).take n) =
      ((List.range n).map (fun j => (area.getD (off + j) 0#8).toNat * 2 ^ (8 * j))).sum := by
  induction n generalizing off with
  | zero => simp [leValue]
  | succ n ih =>
    rw [List.range_succ_eq_map, List.map_cons, List.map_map, List.sum_cons]
    have shift : ((List.range n).map
        ((fun j => (area.getD (off + j) 0#8).toNat * 2 ^ (8 * j)) ∘ Nat.succ)).sum =
        256 * ((List.range n).map (fun j => (area.getD (off + 1 + j) 0#8).toNat * 2 ^ (8 * j))).sum := by
      rw [← List.sum_map_mul_left]
      congr 1
      apply List.map_congr_left
      intro j _
      simp only [Function.comp]
      rw [show off + Nat.succ j = off + 1 + j by omega, show 8 * Nat.succ j = 8 + 8 * j by omega, Nat.pow_add]
      ring
    rw [shift, ← ih]
    by_cases h : off < area.length
    · rw [List.drop_eq_getElem_cons h, List.take_succ_cons, leValue]
      simp [h]
    · rw [List.drop_eq_nil_of_le (by omega), List.drop_eq_nil_of_le (by omega)]
      simp [leValue, h]

end Sys2Proof.Machine
end

