-- ==== Sys2Proof/Laws/Decode.lean ====
section
/-!
SUPPORT. The opcode map is one to one, and what the decode procedure (30_encoding.md R71) answers, said once.
-/

namespace Sys2Proof

open Machine

theorem mem_allOps (o : Op) : o ∈ allOps := by cases o <;> decide

theorem opOfCode_opCode (o : Op) : opOfCode (opCode o) = some o := by cases o <;> rfl

theorem opCode_of_opOfCode {code : Byte} {o : Op} (h : opOfCode code = some o) : opCode o = code := by
  have := List.find?_some h
  simpa using this

theorem opOfCode_eq_some {code : Byte} {o : Op} : opOfCode code = some o ↔ opCode o = code :=
  ⟨opCode_of_opOfCode, fun h => h ▸ opOfCode_opCode o⟩

@[simp] theorem instrOp_readOperands (o : Op) (area : List Byte) : instrOp (readOperands o area) = o := by
  cases o <;> rfl

/-- An operand area of the required length gives a well-formed command. -/
theorem readOperands_wf {o : Op} {area : List Byte} (h : area.length = operandLength o) :
    (readOperands o area).wf = true := by
  cases o <;> simp_all [readOperands, Instr.wf, operandLength]

/-- The decode of a frame whose opcode is a command's. -/
theorem decodeFrame_opCode (o : Op) (area : List Byte) :
    decodeFrame (opCode o :: area) =
      if area.length = operandLength o then .instr (readOperands o area) else .reject .wrongLength := by
  simp [decodeFrame, opOfCode_opCode]

/-- Everything a frame that decodes to a command can be. -/
theorem decodeFrame_instr_cases {bytes : List Byte} {i : Instr} (h : decodeFrame bytes = .instr i) :
    ∃ o area, bytes = opCode o :: area ∧ area.length = operandLength o ∧ i = readOperands o area := by
  match bytes with
  | [] => simp [decodeFrame] at h
  | code :: area =>
    simp only [decodeFrame] at h
    split at h
    · cases h
    · rename_i o ho
      split at h
      · rename_i hl
        exact ⟨o, area, by rw [opCode_of_opOfCode ho], hl, by simpa using h.symm⟩
      · cases h

/-- Everything a frame that is rejected can be. -/
theorem decodeFrame_reject_cases {bytes : List Byte} {r : Reject} (h : decodeFrame bytes = .reject r) :
    (bytes = [] ∧ r = .emptyFrame) ∨
      (∃ code area, bytes = code :: area ∧ opOfCode code = none ∧ r = .reservedOpcode) ∨
      (∃ o area, bytes = opCode o :: area ∧ area.length ≠ operandLength o ∧ r = .wrongLength) := by
  match bytes with
  | [] => exact .inl ⟨rfl, by simpa [decodeFrame] using h.symm⟩
  | code :: area =>
    simp only [decodeFrame] at h
    split at h
    · rename_i hn
      exact .inr (.inl ⟨code, area, rfl, hn, by simpa using h.symm⟩)
    · rename_i o ho
      split at h
      · cases h
      · rename_i hl
        exact .inr (.inr ⟨o, area, by rw [opCode_of_opOfCode ho], hl, by simpa using h.symm⟩)

end Sys2Proof
end

