-- ==== Sys2Proof/Laws/Assembler.lean ====
section
/-!
SUPPORT. What the reader of 30_encoding.md R69 makes of printed digits, operands and lines.
-/

namespace Sys2Proof.Machine

/-- The characters of a hexadecimal number. -/
def hexText : List Char := 'x' :: digitRow

def isHexText (c : Char) : Bool := hexText.contains c

/-- A character that no separator, bracket, quote, blank, comment or arrow is. -/
def isWordChar (c : Char) : Bool :=
  !isBlank c && !(c == ',' || c == '[' || c == ']' || c == '"' || c == ';' || c == '-')

theorem isWordChar_of_isHexText {c : Char} (h : isHexText c = true) : isWordChar c = true := by
  have all : hexText.all isWordChar = true := by rfl
  exact List.all_eq_true.mp all c (List.contains_iff_mem.mp h)

theorem digitValue_hexChar (d : Nat) (h : d < 16) : digitValue (hexChar d) = some d := by
  have all : ∀ d : Fin 16, digitValue (hexChar d.val) = some d.val := by decide
  exact all ⟨d, h⟩

theorem isHexText_hexChar (d : Nat) (h : d < 16) : isHexText (hexChar d) = true := by
  have all : ∀ d : Fin 16, isHexText (hexChar d.val) = true := by decide
  exact all ⟨d, h⟩

theorem hexDigits_isHexText (n v : Nat) : ∀ c ∈ hexDigits n v, isHexText c = true := by
  induction n generalizing v with
  | zero => intro c h; exact absurd h (List.not_mem_nil)
  | succ n ih =>
    intro c h
    rcases List.mem_append.mp h with h | h
    · exact ih _ c h
    · rw [List.mem_singleton.mp h]
      exact isHexText_hexChar _ (Nat.mod_lt _ (by decide))

@[simp] theorem hexDigits_length (n v : Nat) : (hexDigits n v).length = n := by
  induction n generalizing v with
  | zero => rfl
  | succ n ih => simp [hexDigits, ih]

theorem readDigits_hexDigits (n v acc : Nat) (t : List Char) :
    readDigits 16 acc (hexDigits n v ++ t) = readDigits 16 (acc * 16 ^ n + v % 16 ^ n) t := by
  induction n generalizing v t with
  | zero => simp [hexDigits, Nat.mod_one]
  | succ n ih =>
    have hd : v % 16 < 16 := Nat.mod_lt _ (by decide)
    rw [hexDigits, List.append_assoc, ih, List.singleton_append, readDigits, digitValue_hexChar _ hd]
    simp only [hd, if_true]
    congr 1
    rw [Nat.pow_succ', Nat.mod_mul]
    ring

theorem readDigits_hexDigits_lt {n v : Nat} (h : v < 16 ^ n) : readDigits 16 0 (hexDigits n v) = some v := by
  have := readDigits_hexDigits n v 0 []
  rw [List.append_nil] at this
  rw [this, Nat.mod_eq_of_lt h, Nat.zero_mul, Nat.zero_add, readDigits]

theorem readNumber_printHex {n v : Nat} (hn : 0 < n) (h : v < 16 ^ n) : readNumber (printHex n v) = some v := by
  have hr := readDigits_hexDigits_lt h
  have hl := hexDigits_length n v
  rw [printHex]
  match hexDigits n v, hr, hl with
  | [], _, hl => simp at hl; omega
  | c :: t, hr, _ => exact hr

theorem printHex_isHexText (n v : Nat) : ∀ c ∈ printHex n v, isHexText c = true := by
  intro c h
  simp only [printHex, List.mem_cons] at h
  rcases h with rfl | rfl | h
  · decide
  · decide
  · exact hexDigits_isHexText n v c h

/-! ### Blanks, comments, arrows -/

theorem trim_of_ends {t : List Char} (hh : ∀ c ∈ t.head?, isBlank c = false)
    (hl : ∀ c ∈ t.getLast?, isBlank c = false) : trim t = t := by
  have drop_self : ∀ u : List Char, (∀ c ∈ u.head?, isBlank c = false) → u.dropWhile isBlank = u := by
    intro u hu
    cases u with
    | nil => rfl
    | cons c u => rw [List.dropWhile_cons_of_neg (by rw [hu c rfl]; decide)]
  rw [trim, drop_self t hh, drop_self t.reverse (by simpa [List.head?_reverse] using hl), List.reverse_reverse]

theorem trim_blank_cons (t : List Char) : trim (' ' :: t) = trim t := rfl

theorem trim_word {t : List Char} (h : ∀ c ∈ t, isWordChar c = true) : trim t = t := by
  have nb : ∀ c, isWordChar c = true → isBlank c = false := by
    intro c hc
    simp only [isWordChar, Bool.and_eq_true, Bool.not_eq_true'] at hc
    exact hc.1
  exact trim_of_ends (fun c hc => nb c (h c (List.mem_of_mem_head? hc)))
    (fun c hc => nb c (h c (List.mem_of_mem_getLast? hc)))

theorem dropComment_eq {t : List Char} (h : ∀ c ∈ t, c ≠ ';') : dropComment t = t := by
  rw [dropComment, List.takeWhile_eq_self_iff]
  intro c hc
  simpa using h c hc

theorem dropResponse_eq {t : List Char} (h : ∀ c ∈ t, c ≠ '-') : dropResponse t = t := by
  induction t with
  | nil => rfl
  | cons c t ih =>
    have hc := h c (by simp)
    have ht := ih (fun d hd => h d (by simp [hd]))
    rw [dropResponse.eq_def]
    split
    · rename_i heq; cases heq
    · rename_i heq; injection heq with h1 _; exact absurd h1 hc
    · rename_i heq; injection heq with h1 h2; rw [← h1, ← h2, ht]

/-! ### Splitting at commas -/

theorem joinWith_cons_cons (sep t u : List Char) (ts : List (List Char)) :
    joinWith sep (t :: u :: ts) = t ++ sep ++ joinWith sep (u :: ts) := rfl

/-- Text without brackets, and without commas unless it stands inside brackets, belongs to one operand. -/
theorem splitArgs_through (b : Bool) (u acc t : List Char)
    (h : ∀ c ∈ u, c ≠ '[' ∧ c ≠ ']' ∧ (c ≠ ',' ∨ b = true)) :
    splitArgs b acc (u ++ t) = splitArgs b (acc ++ u) t := by
  induction u generalizing acc with
  | nil => simp
  | cons c u ih =>
    obtain ⟨h1, h2, h3⟩ := h c (by simp)
    have hc : ¬ (c = ',' ∧ b = false) := by
      rintro ⟨rfl, rfl⟩
      simp at h3
    rw [List.cons_append, splitArgs, if_neg hc, if_neg h1, if_neg h2, ih _ (fun d hd => h d (by simp [hd]))]
    simp

theorem isWordChar_ne {c : Char} (h : isWordChar c = true) :
    isBlank c = false ∧ c ≠ ',' ∧ c ≠ '[' ∧ c ≠ ']' ∧ c ≠ '"' ∧ c ≠ ';' ∧ c ≠ '-' := by
  simp only [isWordChar, Bool.and_eq_true, Bool.not_eq_true', Bool.or_eq_false_iff, beq_eq_false_iff_ne] at h
  obtain ⟨h0, ⟨⟨⟨⟨h1, h2⟩, h3⟩, h4⟩, h5⟩, h6⟩ := h
  exact ⟨h0, h1, h2, h3, h4, h5, h6⟩

theorem printHex_isWordChar (n v : Nat) : ∀ c ∈ printHex n v, isWordChar c = true :=
  fun c h => isWordChar_of_isHexText (printHex_isHexText n v c h)

/-- Words with comma and blank between them come apart as they were, each but the first after its blank. -/
theorem splitArgs_join (ws : List (List Char)) (w acc : List Char)
    (h : ∀ u ∈ w :: ws, ∀ c ∈ u, isWordChar c = true) :
    splitArgs false acc (joinWith [',', ' '] (w :: ws)) = (acc ++ w) :: ws.map (' ' :: ·) := by
  have word : ∀ u ∈ w :: ws, ∀ acc t, splitArgs false acc (u ++ t) = splitArgs false (acc ++ u) t :=
    fun u hu acc t => splitArgs_through false u acc t fun c hc =>
      let hne := isWordChar_ne (h u hu c hc)
      ⟨hne.2.2.1, hne.2.2.2.1, .inl hne.2.1⟩
  induction ws generalizing w acc with
  | nil =>
    have := word w (by simp) acc []
    rw [List.append_nil] at this
    rw [joinWith, this]
    rfl
  | cons x ws ih =>
    have hx : ∀ u ∈ x :: ws, ∀ c ∈ u, isWordChar c = true := fun u hu => h u (by simp [List.mem_cons.mp hu])
    rw [joinWith_cons_cons, List.append_assoc, word w (by simp)]
    show (acc ++ w) :: splitArgs false [' '] (joinWith [',', ' '] (x :: ws)) = _
    rw [ih x [' '] hx (fun u hu => word u (by simp [List.mem_cons.mp hu]))]
    rfl

theorem readNumbers_blank (ws : List (List Char)) : readNumbers (ws.map (' ' :: ·)) = readNumbers ws := by
  induction ws with
  | nil => rfl
  | cons w ws ih => rw [List.map_cons, readNumbers, readNumbers, trim_blank_cons, ih]

theorem readNumbers_printHex {n : Nat} (hn : 0 < n) (vs : List Nat) (h : ∀ v ∈ vs, v < 16 ^ n) :
    readNumbers (vs.map (printHex n)) = some vs := by
  induction vs with
  | nil => rfl
  | cons v vs ih =>
    rw [List.map_cons, readNumbers, trim_word (printHex_isWordChar n v), readNumber_printHex hn (h v (by simp)),
      ih (fun u hu => h u (by simp [hu]))]
    rfl

/-! ### Operands -/

theorem readArg_blank (t : List Char) : readArg (' ' :: t) = readArg t := rfl

theorem readArg_int {n v : Nat} (hn : 0 < n) (h : v < 16 ^ n) : readArg (printArg (.int n v)) = some (.int 0 v) := by
  have ht := trim_word (printHex_isWordChar n v)
  have hr := readNumber_printHex hn h
  rw [printArg, readArg, ht]
  show (readNumber (printHex n v)).map (AsmArg.int 0) = _
  rw [hr]
  rfl

/-- What a bracketed or quoted text is to `trim`. -/
theorem trim_closed (o c : Char) (body : List Char) (ho : isBlank o = false) (hc : isBlank c = false) :
    trim (o :: (body ++ [c])) = o :: (body ++ [c]) := by
  refine trim_of_ends ?_ ?_
  · intro d hd
    rw [List.head?_cons, Option.mem_some] at hd
    exact hd ▸ ho
  · intro d hd
    rw [← List.cons_append, List.getLast?_append, List.getLast?_singleton, Option.some_or, Option.mem_some] at hd
    exact hd ▸ hc

theorem readArg_vec {n : Nat} (hn : 0 < n) (v : Nat) (vs : List Nat) (h : ∀ u ∈ v :: vs, u < 16 ^ n) :
    readArg (printArg (.vec n (v :: vs))) = some (.vec 0 (v :: vs)) := by
  rw [printArg, readArg, List.cons_append, trim_closed _ _ _ (by decide) (by decide)]
  simp only [List.getLast?_append, List.getLast?_singleton, Option.some_or, if_true, List.dropLast_concat]
  rw [List.map_cons, splitArgs_join, List.nil_append]
  · have hr := readNumbers_printHex hn (v :: vs) h
    rw [List.map_cons, readNumbers] at hr
    rw [readNumbers, readNumbers_blank, hr]
    rfl
  · intro u hu
    rcases List.mem_cons.mp hu with rfl | hu
    · exact printHex_isWordChar n v
    · obtain ⟨x, _, rfl⟩ := List.mem_map.mp hu
      exact printHex_isWordChar n x

theorem filter_image (bytes : List Byte) :
    (joinWith [' '] (bytes.map (fun b => hexDigits 2 b.toNat))).filter (fun c => !isBlank c) =
      bytes.flatMap (fun b => hexDigits 2 b.toNat) := by
  have keep : ∀ b : Byte, (hexDigits 2 b.toNat).filter (fun c => !isBlank c) = hexDigits 2 b.toNat := by
    intro b
    rw [List.filter_eq_self]
    intro c hc
    rw [(isWordChar_ne (isWordChar_of_isHexText (hexDigits_isHexText _ _ c hc))).1]
    rfl
  induction bytes with
  | nil => rfl
  | cons b bytes ih =>
    cases bytes with
    | nil => simp [joinWith, keep]
    | cons d bytes =>
      rw [List.map_cons] at ih
      rw [List.map_cons, List.map_cons, joinWith_cons_cons, List.filter_append, List.filter_append, ih, keep]
      rfl

theorem readPairs_flatMap (bytes : List Byte) :
    readPairs (bytes.flatMap (fun b => hexDigits 2 b.toNat)) = some bytes := by
  induction bytes with
  | nil => rfl
  | cons b bytes ih =>
    have hr : readDigits 16 0 (hexDigits 2 b.toNat) = some b.toNat := readDigits_hexDigits_lt b.isLt
    rw [List.flatMap_cons]
    have hl := hexDigits_length 2 b.toNat
    match hexDigits 2 b.toNat, hr, hl with
    | [c, d], hr, _ =>
      show ((readDigits 16 0 [c, d]).bind fun v =>
        (readPairs (bytes.flatMap (fun b => hexDigits 2 b.toNat))).map (BitVec.ofNat 8 v :: ·)) = _
      rw [hr, ih]
      simp

theorem readArg_img (bytes : List Byte) : readArg (printArg (.img bytes)) = some (.img bytes) := by
  rw [printArg, readArg, List.cons_append, trim_closed _ _ _ (by decide) (by decide)]
  simp only [List.getLast?_append, List.getLast?_singleton, Option.some_or, if_true, List.dropLast_concat]
  rw [filter_image, readPairs_flatMap]
  rfl

/-! ### Lines -/

theorem mnemonic_isWordChar (o : Op) : (mnemonic o).toList.all isWordChar = true := by cases o <;> rfl

theorem opOfMnemonic_mnemonic (o : Op) : opOfMnemonic (mnemonic o).toList = some o := by cases o <;> rfl

/-- A line with operands: a name, one blank, and a text that begins and ends with no blank. -/
theorem readLine_args (o : Op) (t : List Char) (hne : t ≠ []) (htrim : trim t = t)
    (hl : ∀ c ∈ t.getLast?, isBlank c = false) (hc : ∀ c ∈ t, c ≠ ';' ∧ c ≠ '-') :
    readLine ((mnemonic o).toList ++ ' ' :: t) =
      (readArgs (splitArgs false [] t)).bind fun args => instrOfArgs o args := by
  have hw := List.all_eq_true.mp (mnemonic_isWordChar o)
  have hall : ∀ c ∈ (mnemonic o).toList ++ ' ' :: t, c ≠ ';' ∧ c ≠ '-' := by
    intro c h
    rcases List.mem_append.mp h with h | h
    · have := isWordChar_ne (hw c h)
      exact ⟨this.2.2.2.2.2.1, this.2.2.2.2.2.2⟩
    · rcases List.mem_cons.mp h with rfl | h
      · decide
      · exact hc c h
  have hblank : ∀ c ∈ (mnemonic o).toList, (!isBlank c) = true := fun c h => by rw [(isWordChar_ne (hw c h)).1]; rfl
  have ht : trim ((mnemonic o).toList ++ ' ' :: t) = (mnemonic o).toList ++ ' ' :: t := by
    refine trim_of_ends ?_ ?_
    · intro c h
      have hm : c ∈ (mnemonic o).toList.head? := by cases o <;> exact h
      exact (isWordChar_ne (hw c (List.mem_of_mem_head? hm))).1
    · intro c h
      rw [List.getLast?_append, List.getLast?_cons] at h
      cases hg : t.getLast? with
      | none => exact absurd (List.getLast?_eq_none_iff.mp hg) hne
      | some d =>
        rw [hg] at h
        have : d = c := by simpa using h
        exact this ▸ hl d hg
  rw [readLine, dropComment_eq (fun c h => (hall c h).1), dropResponse_eq (fun c h => (hall c h).2), ht,
    List.takeWhile_append_of_pos hblank, List.dropWhile_append_of_pos hblank,
    List.takeWhile_cons_of_neg (by decide), List.dropWhile_cons_of_neg (by decide), List.append_nil,
    opOfMnemonic_mnemonic, trim_blank_cons, htrim, if_neg hne]
  rfl

/-- A line without operands. -/
theorem readLine_bare (o : Op) : readLine (mnemonic o).toList = instrOfArgs o [] := by
  cases o <;> rfl

/-! ### Printed operands inside a line -/

theorem mem_joinWith {sep : List Char} {ws : List (List Char)} {c : Char} (h : c ∈ joinWith sep ws) :
    c ∈ sep ∨ ∃ w ∈ ws, c ∈ w := by
  induction ws with
  | nil => exact absurd h List.not_mem_nil
  | cons w ws ih =>
    cases ws with
    | nil => exact .inr ⟨w, by simp, h⟩
    | cons x ws =>
      rw [joinWith_cons_cons, List.mem_append, List.mem_append] at h
      rcases h with (h | h) | h
      · exact .inr ⟨w, by simp, h⟩
      · exact .inl h
      · rcases ih h with h | ⟨u, hu, h⟩
        · exact .inl h
        · exact .inr ⟨u, by simp [List.mem_cons.mp hu], h⟩

theorem hexDigits_isWordChar (n v : Nat) : ∀ c ∈ hexDigits n v, isWordChar c = true :=
  fun c h => isWordChar_of_isHexText (hexDigits_isHexText n v c h)

/-- A printed operand holds no character that begins a comment or an arrow. -/
theorem printArg_chars (a : AsmArg) : ∀ c ∈ printArg a, c ≠ ';' ∧ c ≠ '-' := by
  have word : ∀ {c}, isWordChar c = true → c ≠ ';' ∧ c ≠ '-' :=
    fun h => ⟨(isWordChar_ne h).2.2.2.2.2.1, (isWordChar_ne h).2.2.2.2.2.2⟩
  intro c h
  cases a with
  | int n v => exact word (printHex_isWordChar n v c h)
  | vec n vs =>
    rw [printArg, List.cons_append, List.mem_cons, List.mem_append, List.mem_singleton] at h
    rcases h with rfl | h | rfl
    · decide
    · rcases mem_joinWith h with h | ⟨w, hw, h⟩
      · simp at h; rcases h with rfl | rfl <;> decide
      · obtain ⟨x, _, rfl⟩ := List.mem_map.mp hw
        exact word (printHex_isWordChar _ _ c h)
    · decide
  | img bytes =>
    rw [printArg, List.cons_append, List.mem_cons, List.mem_append, List.mem_singleton] at h
    rcases h with rfl | h | rfl
    · decide
    · rcases mem_joinWith h with h | ⟨w, hw, h⟩
      · simp at h; subst h; decide
      · obtain ⟨x, _, rfl⟩ := List.mem_map.mp hw
        exact word (hexDigits_isWordChar _ _ c h)
    · decide

/-- A printed operand begins and ends with no blank. -/
theorem printArg_ends (a : AsmArg) : printArg a ≠ [] ∧ (∀ c ∈ (printArg a).head?, isBlank c = false) ∧
    (∀ c ∈ (printArg a).getLast?, isBlank c = false) := by
  cases a with
  | int n v =>
    exact ⟨by simp [printArg, printHex],
      fun c h => (isWordChar_ne (printHex_isWordChar n v c (List.mem_of_mem_head? h))).1,
      fun c h => (isWordChar_ne (printHex_isWordChar n v c (List.mem_of_mem_getLast? h))).1⟩
  | vec n vs =>
    refine ⟨by simp [printArg], fun c h => ?_, fun c h => ?_⟩
    · simp [printArg] at h; subst h; decide
    · have : (printArg (.vec n vs)).getLast? = some ']' := by rw [printArg, List.getLast?_append]; rfl
      rw [this] at h; simp at h; subst h; decide
  | img bytes =>
    refine ⟨by simp [printArg], fun c h => ?_, fun c h => ?_⟩
    · simp [printArg] at h; subst h; decide
    · have : (printArg (.img bytes)).getLast? = some '"' := by rw [printArg, List.getLast?_append]; rfl
      rw [this] at h; simp at h; subst h; decide

/-- No comma of a printed operand ends it. -/
theorem splitArgs_printArg (a : AsmArg) (acc t : List Char) :
    splitArgs false acc (printArg a ++ t) = splitArgs false (acc ++ printArg a) t := by
  cases a with
  | int n v =>
    refine splitArgs_through _ _ _ _ fun c hc => ?_
    have := isWordChar_ne (printHex_isWordChar n v c hc)
    exact ⟨this.2.2.1, this.2.2.2.1, .inl this.2.1⟩
  | vec n vs =>
    have hb : ∀ c ∈ joinWith [',', ' '] (vs.map (printHex n)), c ≠ '[' ∧ c ≠ ']' ∧ (c ≠ ',' ∨ true = true) := by
      intro c h
      rcases mem_joinWith h with h | ⟨w, hw, h⟩
      · simp at h; rcases h with rfl | rfl <;> decide
      · obtain ⟨x, _, rfl⟩ := List.mem_map.mp hw
        have := isWordChar_ne (printHex_isWordChar _ _ c h)
        exact ⟨this.2.2.1, this.2.2.2.1, .inr rfl⟩
    rw [printArg, List.cons_append, List.cons_append, List.append_assoc]
    show splitArgs true (acc ++ ['[']) _ = _
    rw [splitArgs_through true _ _ _ hb]
    show splitArgs false (acc ++ ['['] ++ joinWith [',', ' '] (vs.map (printHex n)) ++ [']']) t = _
    simp
  | img bytes =>
    refine splitArgs_through _ _ _ _ fun c hc => ?_
    rw [printArg, List.cons_append, List.mem_cons, List.mem_append, List.mem_singleton] at hc
    rcases hc with rfl | h | rfl
    · decide
    · rcases mem_joinWith h with h | ⟨w, hw, h⟩
      · simp at h; subst h; decide
      · obtain ⟨x, _, rfl⟩ := List.mem_map.mp hw
        have := isWordChar_ne (hexDigits_isWordChar _ _ c h)
        exact ⟨this.2.2.1, this.2.2.2.1, .inl this.2.1⟩
    · decide

/-- A line with one operand. -/
theorem readLine_one (o : Op) (a b : AsmArg) (h : readArg (printArg a) = some b) :
    readLine ((mnemonic o).toList ++ ' ' :: joinWith [',', ' '] ([a].map printArg)) = instrOfArgs o [b] := by
  obtain ⟨e1, e2, e3⟩ := printArg_ends a
  have hs := splitArgs_printArg a [] []
  rw [List.append_nil] at hs
  show readLine ((mnemonic o).toList ++ ' ' :: printArg a) = _
  rw [readLine_args o _ e1 (trim_of_ends e2 e3) e3 (printArg_chars a), hs]
  show (readArgs [printArg a]).bind _ = _
  simp [readArgs, h]

/-- A line with two operands. -/
theorem readLine_two (o : Op) (a a' b b' : AsmArg) (h : readArg (printArg a) = some b)
    (h' : readArg (printArg a') = some b') :
    readLine ((mnemonic o).toList ++ ' ' :: joinWith [',', ' '] ([a, a'].map printArg)) =
      instrOfArgs o [b, b'] := by
  obtain ⟨e1, e2, _⟩ := printArg_ends a
  obtain ⟨f1, _, f3⟩ := printArg_ends a'
  have hl : ∀ c ∈ (printArg a ++ [',', ' '] ++ printArg a').getLast?, isBlank c = false := by
    intro c hc
    rw [List.getLast?_append] at hc
    cases hg : (printArg a').getLast? with
    | none => exact absurd (List.getLast?_eq_none_iff.mp hg) f1
    | some d => rw [hg] at hc; simp at hc; subst hc; exact f3 _ hg
  have hh : ∀ c ∈ (printArg a ++ [',', ' '] ++ printArg a').head?, isBlank c = false := by
    intro c hc
    cases hg : printArg a with
    | nil => exact absurd hg e1
    | cons d t => rw [hg] at hc e2; exact e2 c hc
  have hs := splitArgs_printArg a' [' '] []
  rw [List.append_nil] at hs
  show readLine ((mnemonic o).toList ++ ' ' :: (printArg a ++ [',', ' '] ++ printArg a')) = _
  rw [readLine_args o _ (by simp [e1]) (trim_of_ends hh hl) hl]
  · rw [List.append_assoc, splitArgs_printArg]
    show (readArgs (([] ++ printArg a) :: splitArgs false [' '] (printArg a'))).bind _ = _
    rw [hs]
    show (readArgs [printArg a, ' ' :: printArg a']).bind _ = _
    simp [readArgs, readArg_blank, h, h']
  · intro c hc
    simp only [List.mem_append] at hc
    rcases hc with (hc | hc) | hc
    · exact printArg_chars a c hc
    · simp at hc; rcases hc with rfl | rfl <;> decide
    · exact printArg_chars a' c hc

theorem wordOf_toNat {w : Nat} (v : BitVec w) : wordOf w v.toNat = some v := by
  rw [wordOf, if_pos v.isLt]
  simp

end Sys2Proof.Machine
end

