-- ==== Sys2Proof/Laws/Config.lean ====
section
/-!
SUPPORT. What is known of the OPEN default vectors (10_state.md R36): they are not all-zero, and nothing else,
because every vector that is not all-zero has the form they are built in.
-/

namespace Sys2Proof

theorem Config.withOneAt_ne_zero {w : Nat} (v : Vec4 w) (i : Fin 4) (b : Fin w) :
    Config.withOneAt v i b ≠ Vec4.zero w := by
  intro h
  have one (x : BitVec w) : x ||| BitVec.twoPow w b.val ≠ 0#w := by
    intro hx
    have hb := congrArg (fun y => y.getLsbD b.val) hx
    simp [b.isLt] at hb
  simp only [Config.withOneAt, Vec4.zero, Vec4.mk.injEq] at h
  fin_cases i <;> simp [one] at h

theorem Config.defaultState256_ne_zero : Config.defaultState256 ≠ Vec4.zero 64 :=
  Config.withOneAt_ne_zero _ _ _

theorem Config.defaultState128_ne_zero : Config.defaultState128 ≠ Vec4.zero 32 :=
  Config.withOneAt_ne_zero _ _ _

/-- Setting a bit that is one changes nothing. -/
theorem BitVec_or_twoPow_self {w : Nat} (x : BitVec w) (b : Nat) (h : x.getLsbD b = true) :
    x ||| BitVec.twoPow w b = x := by
  apply BitVec.eq_of_getLsbD_eq
  intro i _
  simp only [BitVec.getLsbD_or, BitVec.getLsbD_twoPow]
  by_cases hib : b = i
  · subst hib; simp [h]
  · simp [hib]

/-- A word that is not zero has a bit that is one. -/
theorem BitVec_exists_bit {w : Nat} (x : BitVec w) (h : x ≠ 0#w) : ∃ b : Fin w, x.getLsbD b.val = true := by
  by_contra hn
  apply h
  apply BitVec.eq_of_getLsbD_eq
  intro i hi
  have := fun hb => hn ⟨⟨i, hi⟩, hb⟩
  simpa using this

/-- No vector that is not all-zero is left out of the candidates. -/
theorem Config.withOneAt_onto {w : Nat} (v : Vec4 w) (h : v ≠ Vec4.zero w) :
    ∃ i b, Config.withOneAt v i b = v := by
  have hw : v.w0 ≠ 0#w ∨ v.w1 ≠ 0#w ∨ v.w2 ≠ 0#w ∨ v.w3 ≠ 0#w := by
    by_contra hn
    push Not at hn
    exact h (Vec4.ext hn.1 hn.2.1 hn.2.2.1 hn.2.2.2)
  rcases hw with h0 | h1 | h2 | h3
  · obtain ⟨b, hb⟩ := BitVec_exists_bit _ h0
    exact ⟨0, b, by simp [Config.withOneAt, BitVec_or_twoPow_self _ _ hb]⟩
  · obtain ⟨b, hb⟩ := BitVec_exists_bit _ h1
    exact ⟨1, b, by simp [Config.withOneAt, BitVec_or_twoPow_self _ _ hb]⟩
  · obtain ⟨b, hb⟩ := BitVec_exists_bit _ h2
    exact ⟨2, b, by simp [Config.withOneAt, BitVec_or_twoPow_self _ _ hb]⟩
  · obtain ⟨b, hb⟩ := BitVec_exists_bit _ h3
    exact ⟨3, b, by simp [Config.withOneAt, BitVec_or_twoPow_self _ _ hb]⟩

end Sys2Proof
end

