-- ==== Sys2Proof/Laws/Prim.lean ====
section
/-!
SUPPORT. The pure functions in the arithmetic of 00_scope.md R10: the mixer and the half-word helpers on numbers,
the rotation on bits.
-/

namespace Sys2Proof.Machine

theorem xorShift_toNat {w : Nat} (x : BitVec w) (k : Nat) :
    (x ^^^ (x >>> k)).toNat = x.toNat ^^^ (x.toNat / 2 ^ k) := by
  rw [BitVec.toNat_xor, BitVec.toNat_ushiftRight, Nat.shiftRight_eq_div_pow]

theorem xorShiftMul_toNat {w : Nat} (x m : BitVec w) (k : Nat) :
    ((x ^^^ (x >>> k)) * m).toNat = ((x.toNat ^^^ (x.toNat / 2 ^ k)) * m.toNat) % 2 ^ w := by
  rw [BitVec.toNat_mul, xorShift_toNat]

theorem gamma_toNat : gamma.toNat = 0x9e3779b97f4a7c15 := rfl
theorem mul1_toNat : mul1.toNat = 0xbf58476d1ce4e5b9 := rfl
theorem mul2_toNat : mul2.toNat = 0x94d049bb133111eb := rfl

/-- R90 on numbers. -/
theorem mix_toNat (x : Word64) :
    (mix x).toNat =
      let z0 := (x.toNat + 0x9e3779b97f4a7c15) % 2 ^ 64
      let z1 := ((z0 ^^^ (z0 / 2 ^ 30)) * 0xbf58476d1ce4e5b9) % 2 ^ 64
      let z2 := ((z1 ^^^ (z1 / 2 ^ 27)) * 0x94d049bb133111eb) % 2 ^ 64
      z2 ^^^ (z2 / 2 ^ 31) := by
  unfold mix
  rw [xorShift_toNat, xorShiftMul_toNat, xorShiftMul_toNat, BitVec.toNat_add, gamma_toNat, mul1_toNat, mul2_toNat,
    mixShift1, mixShift2, mixShift3]

/-- R102 on numbers. -/
theorem high32_toNat (x : Word64) : (high32 x).toNat = x.toNat / 2 ^ 32 := by
  have := x.isLt
  rw [high32, BitVec.toNat_setWidth, BitVec.toNat_ushiftRight, Nat.shiftRight_eq_div_pow]
  omega

/-- R103 on numbers. -/
theorem low32_toNat (x : Word64) : (low32 x).toNat = x.toNat % 2 ^ 32 := by
  simp only [low32, BitVec.toNat_setWidth, BitVec.toNat_and, BitVec.toNat_ofNat]
  rw [show 4294967295 % 2 ^ 64 = 2 ^ 32 - 1 from rfl, Nat.and_two_pow_sub_one_eq_mod]
  omega

/-- R104 on numbers. -/
theorem join32_toNat (h l : Word32) : (join32 h l).toNat = h.toNat * 2 ^ 32 + l.toNat := by
  have hh := h.isLt
  have hl := l.isLt
  simp only [join32, BitVec.toNat_or, BitVec.toNat_shiftLeft, BitVec.toNat_setWidth]
  rw [Nat.mod_eq_of_lt (a := l.toNat) (by omega), Nat.mod_eq_of_lt (a := h.toNat) (by omega), Nat.shiftLeft_eq,
    Nat.mod_eq_of_lt (a := h.toNat * 2 ^ 32) (by omega), ← Nat.shiftLeft_eq, Nat.shiftLeft_add_eq_or_of_lt (by omega)]

/-- R100, R101 on bits: bit `i` of the argument is bit `(i + k) mod w` of the rotation. -/
theorem rotl_getLsbD {w : Nat} (x : BitVec w) (k i : Nat) (h : 0 < k ∧ k < w) (hi : i < w) :
    (rotl x k h).getLsbD ((i + k) % w) = x.getLsbD i := by
  simp only [rotl, BitVec.getLsbD_or, BitVec.getLsbD_shiftLeft, BitVec.getLsbD_ushiftRight]
  rcases Nat.lt_or_ge (i + k) w with hik | hik
  · rw [Nat.mod_eq_of_lt hik]
    have hge : w - k + (i + k) ≥ w := by omega
    simp [hik, BitVec.getLsbD_of_ge x _ hge]
  · rw [Nat.mod_eq_sub_mod hik, Nat.mod_eq_of_lt (by omega)]
    have hi' : w - k + (i + k - w) = i := by omega
    simp [hi']
    omega

end Sys2Proof.Machine
end

