-- ==== Sys2Proof/Laws/Engine.lean ====
section
/-!
SUPPORT. The generation step loses nothing: exclusive or with a shift, rotation, and multiplication by a unit are
one to one, and so are the step of each engine and the mixer. The step of the all-zero vector, and repetition as
iteration.
-/

namespace Sys2Proof.Machine

theorem bool_xor_cancel : ∀ a b c : Bool, (a ^^ c) = (b ^^ c) → a = b := by decide

theorem xorShiftLeft_injective {w : Nat} (b : Nat) (hb : 0 < b) {x y : BitVec w}
    (h : x ^^^ (x <<< b) = y ^^^ (y <<< b)) : x = y := by
  apply BitVec.eq_of_getLsbD_eq
  intro i
  induction i using Nat.strong_induction_on with
  | _ i ih =>
    intro hi
    have hbit := congrArg (fun z => z.getLsbD i) h
    simp only [BitVec.getLsbD_xor, BitVec.getLsbD_shiftLeft, hi, decide_true, Bool.true_and] at hbit
    rcases Nat.lt_or_ge i b with hib | hib
    · simpa [hib] using hbit
    · rw [ih (i - b) (by omega) (by omega)] at hbit
      exact bool_xor_cancel _ _ _ hbit

theorem xorShiftRight_injective {w : Nat} (k : Nat) (hk : 0 < k) {x y : BitVec w}
    (h : x ^^^ (x >>> k) = y ^^^ (y >>> k)) : x = y := by
  have all : ∀ n i, w - i ≤ n → x.getLsbD i = y.getLsbD i := by
    intro n
    induction n with
    | zero => intro i hi; rw [BitVec.getLsbD_of_ge x i (by omega), BitVec.getLsbD_of_ge y i (by omega)]
    | succ n ih =>
      intro i hi
      rcases Nat.lt_or_ge i w with hiw | hiw
      · have hbit := congrArg (fun z => z.getLsbD i) h
        simp only [BitVec.getLsbD_xor, BitVec.getLsbD_ushiftRight] at hbit
        rw [ih (k + i) (by omega)] at hbit
        exact bool_xor_cancel _ _ _ hbit
      · rw [BitVec.getLsbD_of_ge x i hiw, BitVec.getLsbD_of_ge y i hiw]
  exact BitVec.eq_of_getLsbD_eq fun i _ => all _ i le_rfl

theorem rotl_injective {w : Nat} (k : Nat) (hk : 0 < k ∧ k < w) {x y : BitVec w} (h : rotl x k hk = rotl y k hk) :
    x = y := by
  apply BitVec.eq_of_getLsbD_eq
  intro i hi
  rw [← rotl_getLsbD x k i hk hi, ← rotl_getLsbD y k i hk hi, h]

theorem mulUnit_injective {w : Nat} (m m' : BitVec w) (hm : m * m' = 1#w) {x y : BitVec w} (h : x * m = y * m) :
    x = y := by
  have := congrArg (fun z => z * m') h
  simpa [BitVec.mul_assoc, hm] using this

theorem mul1_unit : mul1 * 0x96de1b173f119089#64 = 1#64 := by decide
theorem mul2_unit : mul2 * 0x319642b2d24d8ec3#64 = 1#64 := by decide

theorem mix_injective {x y : Word64} (h : mix x = mix y) : x = y := by
  have h2 := xorShiftRight_injective mixShift3 (by decide) h
  have h1 := xorShiftRight_injective mixShift2 (by decide) (mulUnit_injective _ _ mul2_unit h2)
  have h0 := xorShiftRight_injective mixShift1 (by decide) (mulUnit_injective _ _ mul1_unit h1)
  exact (BitVec.add_left_inj gamma).mp h0

/-- The vector after a step, written in the words before it. -/
theorem engineStep_words {w : Nat} (a b c : Nat) (ha : 0 < a ∧ a < w) (hc : 0 < c ∧ c < w) (s : Vec4 w) :
    (engineStep a b c ha hc s).2 =
      ⟨s.w0 ^^^ (s.w3 ^^^ s.w1), s.w1 ^^^ (s.w2 ^^^ s.w0), (s.w2 ^^^ s.w0) ^^^ (s.w1 <<< b),
        rotl (s.w3 ^^^ s.w1) c hc⟩ := rfl

theorem engineStep_injective {w : Nat} (a b c : Nat) (ha : 0 < a ∧ a < w) (hb : 0 < b) (hc : 0 < c ∧ c < w)
    {s u : Vec4 w} (h : (engineStep a b c ha hc s).2 = (engineStep a b c ha hc u).2) : s = u := by
  rw [engineStep_words, engineStep_words, Vec4.mk.injEq] at h
  obtain ⟨h0, h1, h2, h3⟩ := h
  have h31 := rotl_injective c hc h3
  rw [h31] at h0
  have e0 : s.w0 = u.w0 := (BitVec.xor_left_inj _).mp h0
  have hx : s.w1 ^^^ (s.w1 <<< b) = u.w1 ^^^ (u.w1 <<< b) := by
    have cancel (p q r : BitVec w) : p ^^^ r = (p ^^^ q) ^^^ (q ^^^ r) := by
      rw [BitVec.xor_assoc, ← BitVec.xor_assoc q q r, BitVec.xor_self, BitVec.zero_xor]
    rw [cancel s.w1 (s.w2 ^^^ s.w0), cancel u.w1 (u.w2 ^^^ u.w0), h1, h2]
  have e1 := xorShiftLeft_injective b hb hx
  rw [e1, e0] at h1
  rw [e1] at h31
  have e2 : s.w2 = u.w2 := (BitVec.xor_left_inj _).mp ((BitVec.xor_right_inj _).mp h1)
  have e3 : s.w3 = u.w3 := (BitVec.xor_left_inj _).mp h31
  exact Vec4.ext e0 e1 e2 e3

theorem next256_injective {s u : Vec4 64} (h : (next256 s).2 = (next256 u).2) : s = u :=
  engineStep_injective rotA256 shiftB256 rotC256 (by decide) (by decide) (by decide) h

theorem next128_injective {s u : Vec4 32} (h : (next128 s).2 = (next128 u).2) : s = u :=
  engineStep_injective rotA128 shiftB128 rotC128 (by decide) (by decide) (by decide) h

theorem next256_zero : next256 (Vec4.zero 64) = (0#64, Vec4.zero 64) := by decide
theorem next128_zero : next128 (Vec4.zero 32) = (0#32, Vec4.zero 32) := by decide

/-- A degenerate engine was degenerate before the step. -/
theorem next256_eq_zero {v : Vec4 64} : (next256 v).2 = Vec4.zero 64 ↔ v = Vec4.zero 64 :=
  ⟨fun h => next256_injective (h.trans (by rw [next256_zero])), fun h => by rw [h, next256_zero]⟩

theorem next128_eq_zero {v : Vec4 32} : (next128 v).2 = Vec4.zero 32 ↔ v = Vec4.zero 32 :=
  ⟨fun h => next128_injective (h.trans (by rw [next128_zero])), fun h => by rw [h, next128_zero]⟩

/-- Repetition (R131, R175) is iteration. -/
theorem discardSteps_eq_iterate {w : Nat} (next : Vec4 w → BitVec w × Vec4 w) (v : Vec4 w) (n : Nat) :
    discardSteps next v n = (fun u => (next u).2)^[n] v := by
  induction n generalizing v with
  | zero => rfl
  | succ n ih => rw [discardSteps, ih, Function.iterate_succ_apply]

theorem discard256_eq_zero {v : Vec4 64} (n : Nat) : discard256 v n = Vec4.zero 64 ↔ v = Vec4.zero 64 := by
  unfold discard256
  induction n generalizing v with
  | zero => exact Iff.rfl
  | succ n ih => rw [discardSteps, ih, next256_eq_zero]

theorem discard128_eq_zero {v : Vec4 32} (n : Nat) : discard128 v n = Vec4.zero 32 ↔ v = Vec4.zero 32 := by
  unfold discard128
  induction n generalizing v with
  | zero => exact Iff.rfl
  | succ n ih => rw [discardSteps, ih, next128_eq_zero]

end Sys2Proof.Machine
end

