-- ==== Sys2Proof/Laws/State.lean ====
section
/-!
SUPPORT. One lemma per field of State and per named update, so that no proof unfolds a record update.
-/

namespace Sys2Proof.Machine

@[simp] theorem writeS256_s256 (v : Vec4 64) (s : State) : (writeS256 v s).s256 = v := rfl
@[simp] theorem writeS256_s128 (v : Vec4 64) (s : State) : (writeS256 v s).s128 = s.s128 := rfl
@[simp] theorem writeS256_requests (v : Vec4 64) (s : State) : (writeS256 v s).requests = s.requests := rfl
@[simp] theorem writeS256_responses (v : Vec4 64) (s : State) : (writeS256 v s).responses = s.responses := rfl

@[simp] theorem writeS128_s256 (v : Vec4 32) (s : State) : (writeS128 v s).s256 = s.s256 := rfl
@[simp] theorem writeS128_s128 (v : Vec4 32) (s : State) : (writeS128 v s).s128 = v := rfl
@[simp] theorem writeS128_requests (v : Vec4 32) (s : State) : (writeS128 v s).requests = s.requests := rfl
@[simp] theorem writeS128_responses (v : Vec4 32) (s : State) : (writeS128 v s).responses = s.responses := rfl

@[simp] theorem pushResponse_s256 (r : List Byte) (s : State) : (pushResponse r s).s256 = s.s256 := rfl
@[simp] theorem pushResponse_s128 (r : List Byte) (s : State) : (pushResponse r s).s128 = s.s128 := rfl
@[simp] theorem pushResponse_requests (r : List Byte) (s : State) : (pushResponse r s).requests = s.requests := rfl
@[simp] theorem pushResponse_responses (r : List Byte) (s : State) :
    (pushResponse r s).responses = s.responses ++ [r] := rfl

@[simp] theorem respond_s256 (r : List Byte) (s : State) : (respond r s).s256 = s.s256 := rfl
@[simp] theorem respond_s128 (r : List Byte) (s : State) : (respond r s).s128 = s.s128 := rfl
@[simp] theorem respond_requests (r : List Byte) (s : State) : (respond r s).requests = s.requests := rfl
@[simp] theorem respond_responses (r : List Byte) (s : State) :
    (respond r s).responses = s.responses ++ [0x00#8 :: r] := rfl

@[simp] theorem raiseError_s256 (e : Status) (s : State) : (raiseError e s).s256 = s.s256 := rfl
@[simp] theorem raiseError_s128 (e : Status) (s : State) : (raiseError e s).s128 = s.s128 := rfl
@[simp] theorem raiseError_requests (e : Status) (s : State) : (raiseError e s).requests = s.requests := rfl
@[simp] theorem raiseError_responses (e : Status) (s : State) :
    (raiseError e s).responses = s.responses ++ [[statusCode e]] := rfl

@[simp] theorem takeReset_s256 (s : State) : (takeReset s).s256 = Config.defaultState256 := rfl
@[simp] theorem takeReset_s128 (s : State) : (takeReset s).s128 = Config.defaultState128 := rfl
@[simp] theorem takeReset_requests (s : State) : (takeReset s).requests = s.requests := rfl
@[simp] theorem takeReset_responses (s : State) : (takeReset s).responses = s.responses := rfl

@[simp] theorem setRequests_s256 (rs : List Request) (s : State) : (setRequests rs s).s256 = s.s256 := rfl
@[simp] theorem setRequests_s128 (rs : List Request) (s : State) : (setRequests rs s).s128 = s.s128 := rfl
@[simp] theorem setRequests_requests (rs : List Request) (s : State) : (setRequests rs s).requests = rs := rfl
@[simp] theorem setRequests_responses (rs : List Request) (s : State) :
    (setRequests rs s).responses = s.responses := rfl

@[simp] theorem presentFrame_s256 (f : List Byte) (s : State) : (presentFrame f s).s256 = s.s256 := rfl
@[simp] theorem presentFrame_s128 (f : List Byte) (s : State) : (presentFrame f s).s128 = s.s128 := rfl
@[simp] theorem presentFrame_requests (f : List Byte) (s : State) :
    (presentFrame f s).requests = .frame f :: s.requests := rfl
@[simp] theorem presentFrame_responses (f : List Byte) (s : State) :
    (presentFrame f s).responses = s.responses := rfl

@[simp] theorem reset_s256 : State.reset.s256 = Config.defaultState256 := rfl
@[simp] theorem reset_s128 : State.reset.s128 = Config.defaultState128 := rfl
@[simp] theorem reset_requests : State.reset.requests = [] := rfl
@[simp] theorem reset_responses : State.reset.responses = [] := rfl

/-- The step, by the host's next request. -/
theorem serveHost_idle {s : State} (h : s.requests = []) : serveHost s = .next s := by
  simp [serveHost, h]

theorem serveHost_frame {s : State} {bytes : List Byte} {rest : List Request}
    (h : s.requests = .frame bytes :: rest) : serveHost s = transaction bytes (setRequests rest s) := by
  simp [serveHost, h]

theorem serveHost_reset {s : State} {rest : List Request} (h : s.requests = .reset :: rest) :
    serveHost s = .next (takeReset (setRequests rest s)) := by
  simp [serveHost, h]

theorem serveHost_overlap {s : State} {rest : List Request} (h : s.requests = .overlap :: rest) :
    serveHost s = .fault .overlappingRequests := by
  simp [serveHost, h]

end Sys2Proof.Machine
end

