-- ==== Sys2Proof/Laws/Exec.lean ====
section
/-!
SUPPORT. Everything `exec` can do, said once: the vectors after a command, its response, and the equation that every
command answers a next state made of them. Later proofs cite `exec_eq` and go by cases over these three functions.
-/

namespace Sys2Proof.Machine

/-- `s256` after a command, from `s256` before it. -/
def new256 (i : Instr) (v : Vec4 64) : Vec4 64 :=
  match i with
  | .x256Init => Config.defaultState256
  | .x256Seed64 seed => seed256 seed
  | .x256Seedraw w0 w1 w2 w3 => ⟨w0, w1, w2, w3⟩
  | .x256Seedseq b0 b1 b2 b3 b4 b5 b6 b7 => pack256 b0 b1 b2 b3 b4 b5 b6 b7
  | .x256Next => (next256 v).2
  | .x256Discard n => discard256 v n.toNat
  | .x256Load img => (deser256 img).getD v
  | _ => v

/-- `s128` after a command, from `s128` before it. -/
def new128 (i : Instr) (v : Vec4 32) : Vec4 32 :=
  match i with
  | .x128Init => Config.defaultState128
  | .x128Seed64 seed => seed128 seed
  | .x128Seed32 seed => seed128 (widen32 seed)
  | .x128Seedraw w0 w1 w2 w3 => ⟨w0, w1, w2, w3⟩
  | .x128Seedraw64 q0 q1 => unpack128 q0 q1
  | .x128Seedseq b0 b1 b2 b3 => ⟨b0, b1, b2, b3⟩
  | .x128Next => (next128 v).2
  | .x128Discard n => discard128 v n.toNat
  | .x128Load img => (deser128 img).getD v
  | _ => v

/-- The response of a command. -/
def answer (i : Instr) (v : Vec4 64) (u : Vec4 32) : List Byte :=
  match i with
  | .primMix x => 0x00#8 :: bytes64 (mix x)
  | .primRotl64 x k =>
    if h : 0 < k.toNat ∧ k.toNat < 64 then 0x00#8 :: bytes64 (rotl64 x k.toNat h) else [0x03#8]
  | .primRotl32 x k =>
    if h : 0 < k.toNat ∧ k.toNat < 32 then 0x00#8 :: bytes32 (rotl32 x k.toNat h) else [0x03#8]
  | .primHigh32 x => 0x00#8 :: bytes32 (high32 x)
  | .primLow32 x => 0x00#8 :: bytes32 (low32 x)
  | .primJoin32 hi lo => 0x00#8 :: bytes64 (join32 hi lo)
  | .x256Next => 0x00#8 :: bytes64 (next256 v).1
  | .x256Eq w0 w1 w2 w3 => [0x00#8, flagByte (eq256 v ⟨w0, w1, w2, w3⟩)]
  | .x256Save => 0x00#8 :: ser256 v
  | .x256Load img => if (deser256 img).isSome then [0x00#8] else [0x02#8]
  | .x256Min => 0x00#8 :: bytes64 0#64
  | .x256Max => 0x00#8 :: bytes64 0xFFFFFFFFFFFFFFFF#64
  | .x128Next => 0x00#8 :: bytes32 (next128 u).1
  | .x128Eq w0 w1 w2 w3 => [0x00#8, flagByte (eq128 u ⟨w0, w1, w2, w3⟩)]
  | .x128Save => 0x00#8 :: ser128 u
  | .x128Load img => if (deser128 img).isSome then [0x00#8] else [0x02#8]
  | .x128Min => 0x00#8 :: bytes32 0#32
  | .x128Max => 0x00#8 :: bytes32 0xFFFFFFFF#32
  | _ => [0x00#8]

/-- The state after a command. -/
def after (i : Instr) (s : State) : State :=
  { s256 := new256 i s.s256, s128 := new128 i s.s128, requests := s.requests,
    responses := s.responses ++ [answer i s.s256 s.s128] }

theorem after_s256 (i : Instr) (s : State) : (after i s).s256 = new256 i s.s256 := by unfold after; rfl
theorem after_s128 (i : Instr) (s : State) : (after i s).s128 = new128 i s.s128 := by unfold after; rfl
theorem after_requests (i : Instr) (s : State) : (after i s).requests = s.requests := by unfold after; rfl
theorem after_responses (i : Instr) (s : State) :
    (after i s).responses = s.responses ++ [answer i s.s256 s.s128] := by unfold after; rfl

theorem respond_eq (r : List Byte) (s : State) :
    respond r s = ⟨s.s256, s.s128, s.requests, s.responses ++ [0x00#8 :: r]⟩ := rfl

theorem respond_writeS256 (r : List Byte) (v : Vec4 64) (s : State) :
    respond r (writeS256 v s) = ⟨v, s.s128, s.requests, s.responses ++ [0x00#8 :: r]⟩ := rfl

theorem respond_writeS128 (r : List Byte) (v : Vec4 32) (s : State) :
    respond r (writeS128 v s) = ⟨s.s256, v, s.requests, s.responses ++ [0x00#8 :: r]⟩ := rfl

theorem raiseError_eq (e : Status) (s : State) :
    raiseError e s = ⟨s.s256, s.s128, s.requests, s.responses ++ [[statusCode e]]⟩ := rfl

theorem answer_rotl64 (x : Word64) (k : Byte) (v : Vec4 64) (u : Vec4 32) :
    answer (.primRotl64 x k) v u =
      if h : 0 < k.toNat ∧ k.toNat < 64 then 0x00#8 :: bytes64 (rotl64 x k.toNat h) else [0x03#8] := rfl

theorem answer_rotl32 (x : Word32) (k : Byte) (v : Vec4 64) (u : Vec4 32) :
    answer (.primRotl32 x k) v u =
      if h : 0 < k.toNat ∧ k.toNat < 32 then 0x00#8 :: bytes32 (rotl32 x k.toNat h) else [0x03#8] := rfl

theorem exec_rotl64 (x : Word64) (k : Byte) (s : State) :
    exec (.primRotl64 x k) s = .next (after (.primRotl64 x k) s) := by
  show execPrimRotl64 x k s = _
  unfold execPrimRotl64 after
  rw [answer_rotl64]
  split <;> rfl

theorem exec_rotl32 (x : Word32) (k : Byte) (s : State) :
    exec (.primRotl32 x k) s = .next (after (.primRotl32 x k) s) := by
  show execPrimRotl32 x k s = _
  unfold execPrimRotl32 after
  rw [answer_rotl32]
  split <;> rfl

theorem exec_load256 (img : List Byte) (s : State) :
    exec (.x256Load img) s = .next (after (.x256Load img) s) := by
  show execX256Load img s = .next ⟨(deser256 img).getD s.s256, s.s128, s.requests,
    s.responses ++ [if (deser256 img).isSome then [0x00#8] else [0x02#8]]⟩
  unfold execX256Load
  cases deser256 img <;> rfl

theorem exec_load128 (img : List Byte) (s : State) :
    exec (.x128Load img) s = .next (after (.x128Load img) s) := by
  show execX128Load img s = .next ⟨s.s256, (deser128 img).getD s.s128, s.requests,
    s.responses ++ [if (deser128 img).isSome then [0x00#8] else [0x02#8]]⟩
  unfold execX128Load
  cases deser128 img <;> rfl

/-- Every command answers a next state, and this one. -/
theorem exec_eq (i : Instr) (s : State) : exec i s = .next (after i s) := by
  cases i with
  | primMix x => exact congrArg Host.Outcome.next (respond_eq (bytes64 (mix x)) s)
  | primRotl64 x k => exact exec_rotl64 x k s
  | primRotl32 x k => exact exec_rotl32 x k s
  | primHigh32 x => exact congrArg Host.Outcome.next (respond_eq (bytes32 (high32 x)) s)
  | primLow32 x => exact congrArg Host.Outcome.next (respond_eq (bytes32 (low32 x)) s)
  | primJoin32 hi lo => exact congrArg Host.Outcome.next (respond_eq (bytes64 (join32 hi lo)) s)
  | x256Init => exact congrArg Host.Outcome.next (respond_writeS256 [] Config.defaultState256 s)
  | x256Seed64 seed => exact congrArg Host.Outcome.next (respond_writeS256 [] (seed256 seed) s)
  | x256Seedraw w0 w1 w2 w3 => exact congrArg Host.Outcome.next (respond_writeS256 [] ⟨w0, w1, w2, w3⟩ s)
  | x256Seedseq b0 b1 b2 b3 b4 b5 b6 b7 =>
    exact congrArg Host.Outcome.next (respond_writeS256 [] (pack256 b0 b1 b2 b3 b4 b5 b6 b7) s)
  | x256Next => exact congrArg Host.Outcome.next (respond_writeS256 (bytes64 (next256 s.s256).1) (next256 s.s256).2 s)
  | x256Discard n => exact congrArg Host.Outcome.next (respond_writeS256 [] (discard256 s.s256 n.toNat) s)
  | x256Eq w0 w1 w2 w3 => exact congrArg Host.Outcome.next (respond_eq [flagByte (eq256 s.s256 ⟨w0, w1, w2, w3⟩)] s)
  | x256Save => exact congrArg Host.Outcome.next (respond_eq (ser256 s.s256) s)
  | x256Load img => exact exec_load256 img s
  | x256Min => exact congrArg Host.Outcome.next (respond_eq (bytes64 0#64) s)
  | x256Max => exact congrArg Host.Outcome.next (respond_eq (bytes64 0xFFFFFFFFFFFFFFFF#64) s)
  | x128Init => exact congrArg Host.Outcome.next (respond_writeS128 [] Config.defaultState128 s)
  | x128Seed64 seed => exact congrArg Host.Outcome.next (respond_writeS128 [] (seed128 seed) s)
  | x128Seedraw w0 w1 w2 w3 => exact congrArg Host.Outcome.next (respond_writeS128 [] ⟨w0, w1, w2, w3⟩ s)
  | x128Seedseq b0 b1 b2 b3 => exact congrArg Host.Outcome.next (respond_writeS128 [] ⟨b0, b1, b2, b3⟩ s)
  | x128Next => exact congrArg Host.Outcome.next (respond_writeS128 (bytes32 (next128 s.s128).1) (next128 s.s128).2 s)
  | x128Discard n => exact congrArg Host.Outcome.next (respond_writeS128 [] (discard128 s.s128 n.toNat) s)
  | x128Eq w0 w1 w2 w3 => exact congrArg Host.Outcome.next (respond_eq [flagByte (eq128 s.s128 ⟨w0, w1, w2, w3⟩)] s)
  | x128Save => exact congrArg Host.Outcome.next (respond_eq (ser128 s.s128) s)
  | x128Load img => exact exec_load128 img s
  | x128Min => exact congrArg Host.Outcome.next (respond_eq (bytes32 0#32) s)
  | x128Max => exact congrArg Host.Outcome.next (respond_eq (bytes32 0xFFFFFFFF#32) s)
  | x128Seed32 seed => exact congrArg Host.Outcome.next (respond_writeS128 [] (seed128 (widen32 seed)) s)
  | x128Seedraw64 q0 q1 => exact congrArg Host.Outcome.next (respond_writeS128 [] (unpack128 q0 q1) s)

/-- What the answer to a frame that is no command is. -/
theorem transaction_reject {bytes : List Byte} {r : Reject} (s : State) (h : decodeFrame bytes = .reject r) :
    transaction bytes s = .next (raiseError (rejectStatus r) s) := by
  simp [transaction, h]

theorem transaction_instr {bytes : List Byte} {i : Instr} (s : State) (h : decodeFrame bytes = .instr i) :
    transaction bytes s = .next (after i s) := by
  simp [transaction, h, exec_eq]

/-- Everything a step can do: nothing is pending, a frame is executed, a frame is refused, or reset is taken. -/
theorem step_cases {s t : State} (h : step s = .next t) :
    (s.requests = [] ∧ t = s) ∨
      (∃ bytes rest i, s.requests = .frame bytes :: rest ∧ decodeFrame bytes = .instr i ∧
        t = after i (setRequests rest s)) ∨
      (∃ bytes rest r, s.requests = .frame bytes :: rest ∧ decodeFrame bytes = .reject r ∧
        t = raiseError (rejectStatus r) (setRequests rest s)) ∨
      (∃ rest, s.requests = .reset :: rest ∧ t = takeReset (setRequests rest s)) := by
  simp only [step, serveHost] at h
  split at h
  · rename_i hr
    exact .inl ⟨hr, by simpa using h.symm⟩
  · rename_i bytes rest hr
    simp only [transaction] at h
    split at h
    · rename_i i hi
      rw [exec_eq] at h
      exact .inr (.inl ⟨bytes, rest, i, hr, hi, by simpa using h.symm⟩)
    · rename_i r hi
      exact .inr (.inr (.inl ⟨bytes, rest, r, hr, hi, by simpa using h.symm⟩))
  · rename_i rest hr
    exact .inr (.inr (.inr ⟨rest, hr, by simpa using h.symm⟩))
  · cases h

/-- What a step on a frame does, whatever the frame's bytes. -/
theorem step_frame {s : State} {bytes : List Byte} {rest : List Request} (h : s.requests = .frame bytes :: rest) :
    (∃ i, decodeFrame bytes = .instr i ∧ step s = .next (after i (setRequests rest s))) ∨
      (∃ r, decodeFrame bytes = .reject r ∧
        step s = .next (raiseError (rejectStatus r) (setRequests rest s))) := by
  rw [step, serveHost_frame h]
  cases hd : decodeFrame bytes with
  | instr i => exact .inl ⟨i, rfl, transaction_instr _ hd⟩
  | reject r => exact .inr ⟨r, rfl, transaction_reject _ hd⟩

/-- One step of a run. -/
theorem core_run_succ (M : Host.Core) (k : Nat) (s t : M.State) (h : M.step s = .next t) :
    M.run (k + 1) s = M.run k t := by
  simp only [Host.Core.run, h]

end Sys2Proof.Machine
end

