-- ==== Sys2Proof/Laws/PerInstr.lean ====
section
/-!
SUPPORT. The family FrameLength, one lemma per constructor of Instr: the frame of a well-formed command has the
length its opcode requires (30_encoding.md R65).
-/

namespace Sys2Proof.Laws.FrameLength

def Statement (i : Instr) : Prop := i.wf = true → (encode i).length = 1 + operandLength (instrOp i)

theorem primMix (x : Word64) : Statement (.primMix x) :=
  fun _ => by simp [encode, operandBytes, instrOp, operandLength]

theorem primRotl64 (x : Word64) (k : Byte) : Statement (.primRotl64 x k) :=
  fun _ => by simp [encode, operandBytes, instrOp, operandLength]

theorem primRotl32 (x : Word32) (k : Byte) : Statement (.primRotl32 x k) :=
  fun _ => by simp [encode, operandBytes, instrOp, operandLength]

theorem primHigh32 (x : Word64) : Statement (.primHigh32 x) :=
  fun _ => by simp [encode, operandBytes, instrOp, operandLength]

theorem primLow32 (x : Word64) : Statement (.primLow32 x) :=
  fun _ => by simp [encode, operandBytes, instrOp, operandLength]

theorem primJoin32 (hi lo : Word32) : Statement (.primJoin32 hi lo) :=
  fun _ => by simp [encode, operandBytes, instrOp, operandLength]

theorem x256Init : Statement .x256Init := fun _ => by simp [encode, operandBytes, instrOp, operandLength]

theorem x256Seed64 (seed : Word64) : Statement (.x256Seed64 seed) :=
  fun _ => by simp [encode, operandBytes, instrOp, operandLength]

theorem x256Seedraw (w0 w1 w2 w3 : Word64) : Statement (.x256Seedraw w0 w1 w2 w3) :=
  fun _ => by simp [encode, operandBytes, instrOp, operandLength]

theorem x256Seedseq (b0 b1 b2 b3 b4 b5 b6 b7 : Word32) : Statement (.x256Seedseq b0 b1 b2 b3 b4 b5 b6 b7) :=
  fun _ => by simp [encode, operandBytes, instrOp, operandLength]

theorem x256Next : Statement .x256Next := fun _ => by simp [encode, operandBytes, instrOp, operandLength]

theorem x256Discard (n : Word64) : Statement (.x256Discard n) :=
  fun _ => by simp [encode, operandBytes, instrOp, operandLength]

theorem x256Eq (w0 w1 w2 w3 : Word64) : Statement (.x256Eq w0 w1 w2 w3) :=
  fun _ => by simp [encode, operandBytes, instrOp, operandLength]

theorem x256Save : Statement .x256Save := fun _ => by simp [encode, operandBytes, instrOp, operandLength]

theorem x256Load (img : List Byte) : Statement (.x256Load img) := by
  intro h
  simp [Instr.wf] at h
  simp [encode, operandBytes, instrOp, operandLength, h]

theorem x256Min : Statement .x256Min := fun _ => by simp [encode, operandBytes, instrOp, operandLength]

theorem x256Max : Statement .x256Max := fun _ => by simp [encode, operandBytes, instrOp, operandLength]

theorem x128Init : Statement .x128Init := fun _ => by simp [encode, operandBytes, instrOp, operandLength]

theorem x128Seed64 (seed : Word64) : Statement (.x128Seed64 seed) :=
  fun _ => by simp [encode, operandBytes, instrOp, operandLength]

theorem x128Seedraw (w0 w1 w2 w3 : Word32) : Statement (.x128Seedraw w0 w1 w2 w3) :=
  fun _ => by simp [encode, operandBytes, instrOp, operandLength]

theorem x128Seedseq (b0 b1 b2 b3 : Word32) : Statement (.x128Seedseq b0 b1 b2 b3) :=
  fun _ => by simp [encode, operandBytes, instrOp, operandLength]

theorem x128Next : Statement .x128Next := fun _ => by simp [encode, operandBytes, instrOp, operandLength]

theorem x128Discard (n : Word64) : Statement (.x128Discard n) :=
  fun _ => by simp [encode, operandBytes, instrOp, operandLength]

theorem x128Eq (w0 w1 w2 w3 : Word32) : Statement (.x128Eq w0 w1 w2 w3) :=
  fun _ => by simp [encode, operandBytes, instrOp, operandLength]

theorem x128Save : Statement .x128Save := fun _ => by simp [encode, operandBytes, instrOp, operandLength]

theorem x128Load (img : List Byte) : Statement (.x128Load img) := by
  intro h
  simp [Instr.wf] at h
  simp [encode, operandBytes, instrOp, operandLength, h]

theorem x128Min : Statement .x128Min := fun _ => by simp [encode, operandBytes, instrOp, operandLength]

theorem x128Max : Statement .x128Max := fun _ => by simp [encode, operandBytes, instrOp, operandLength]

theorem x128Seed32 (seed : Word32) : Statement (.x128Seed32 seed) :=
  fun _ => by simp [encode, operandBytes, instrOp, operandLength]

theorem x128Seedraw64 (q0 q1 : Word64) : Statement (.x128Seedraw64 q0 q1) :=
  fun _ => by simp [encode, operandBytes, instrOp, operandLength]

end Sys2Proof.Laws.FrameLength
end

