-- ==== Sys2Proof/Tests/Slice0.lean ====
section
/-!
SUPPORT. The model's own tests: ill-formed terms, one hand-written frame per constructor, one or two commands per
instruction, the error responses, the assembler's examples, and for every statement with hypotheses a state or an
operand that meets them. Expected values are those of spec/95_test_vectors.md (V and P numbers) and of the rules.
-/

namespace Sys2Proof.Tests

open Machine Spec

def bytesOf (ns : List Nat) : List Byte := ns.map (BitVec.ofNat 8)

/-- A small state: both vectors `[1, 2, 3, 4]`, nothing presented, nothing answered. -/
def small : State :=
  { s256 := ⟨1#64, 2#64, 3#64, 4#64⟩, s128 := ⟨1#32, 2#32, 3#32, 4#32⟩, requests := [], responses := [] }

/-- `small` with other vectors. -/
def with256 (v : Vec4 64) : State := writeS256 v small
def with128 (v : Vec4 32) : State := writeS128 v small

/-- The state after one step on a frame. -/
def afterFrame (s : State) (bytes : List Byte) : Option State :=
  match step (presentFrame bytes s) with
  | .next t => some t
  | .fault _ => none
  | .refused _ => none

def answers (s : State) (bytes : List Byte) : Option (List (List Byte)) := (afterFrame s bytes).map State.responses
def s256After (s : State) (bytes : List Byte) : Option (Vec4 64) := (afterFrame s bytes).map State.s256
def s128After (s : State) (bytes : List Byte) : Option (Vec4 32) := (afterFrame s bytes).map State.s128

/-- The frame is answered by the single status byte and leaves both vectors. -/
abbrev refusedWith (bytes : List Byte) (status : Nat) : Prop :=
  answers small bytes = some [bytesOf [status]] ∧ s256After small bytes = some small.s256 ∧
    s128After small bytes = some small.s128

def isNext : Host.Outcome State Fault Refusal → Bool
  | .next _ => true
  | .fault _ => false
  | .refused _ => false

/-! ### Ill-formed terms -/

theorem test_wf_load256_empty : (Instr.x256Load []).wf = false := by decide

theorem test_wf_load256_20 : (Instr.x256Load (List.replicate 20 0#8)).wf = false := by decide

theorem test_wf_load128_empty : (Instr.x128Load []).wf = false := by decide

theorem test_wf_load128_36 : (Instr.x128Load (List.replicate 36 0#8)).wf = false := by decide

theorem test_wf_load_legal : (Instr.x256Load (List.replicate 36 0#8)).wf = true ∧ (Instr.x128Load
    (List.replicate 20 0#8)).wf = true := by decide

/-! ### Decoding: a frame written out from the map, one per constructor -/

theorem test_decode_primMix : decodeFrame (bytesOf [0x01, 0x00, 0x00, 0x00, 0x00, 0x00, 0x00, 0x00, 0x80]) =
    .instr (.primMix 0x8000000000000000#64) := by decide

theorem test_decode_primRotl64 : decodeFrame (bytesOf [0x02, 0x01, 0x00, 0x00, 0x00, 0x00, 0x00, 0x00, 0x80,
    0x01]) = .instr (.primRotl64 0x8000000000000001#64 1#8) := by decide

theorem test_decode_primRotl32 : decodeFrame (bytesOf [0x03, 0x01, 0x00, 0x00, 0x80, 0x1F]) = .instr
    (.primRotl32 0x80000001#32 31#8) := by decide

theorem test_decode_primHigh32 : decodeFrame (bytesOf [0x04, 0xEF, 0xCD, 0xAB, 0x89, 0x67, 0x45, 0x23, 0x01]) =
    .instr (.primHigh32 0x0123456789ABCDEF#64) := by decide

theorem test_decode_primLow32 : decodeFrame (bytesOf [0x05, 0xEF, 0xCD, 0xAB, 0x89, 0x67, 0x45, 0x23, 0x01]) =
    .instr (.primLow32 0x0123456789ABCDEF#64) := by decide

theorem test_decode_primJoin32 : decodeFrame (bytesOf [0x06, 0x67, 0x45, 0x23, 0x01, 0xEF, 0xCD, 0xAB, 0x89]) =
    .instr (.primJoin32 0x01234567#32 0x89ABCDEF#32) := by decide

theorem test_decode_x256Init : decodeFrame (bytesOf [0x40]) = .instr (.x256Init) := by decide

theorem test_decode_x256Seed64 : decodeFrame (bytesOf [0x41, 0x2A, 0x00, 0x00, 0x00, 0x00, 0x00, 0x00, 0x00]) =
    .instr (.x256Seed64 0x2A#64) := by decide

theorem test_decode_x256Seedraw : decodeFrame (bytesOf [0x42, 0x01, 0x00, 0x00, 0x00, 0x00, 0x00, 0x00, 0x00,
    0x02, 0x00, 0x00, 0x00, 0x00, 0x00, 0x00, 0x00, 0x03, 0x00, 0x00, 0x00, 0x00, 0x00, 0x00, 0x00, 0x04, 0x00,
    0x00, 0x00, 0x00, 0x00, 0x00, 0x00]) = .instr (.x256Seedraw 1#64 2#64 3#64 4#64) := by decide

theorem test_decode_x256Seedseq : decodeFrame (bytesOf [0x43, 0x11, 0x11, 0x11, 0x11, 0x22, 0x22, 0x22, 0x22,
    0x33, 0x33, 0x33, 0x33, 0x44, 0x44, 0x44, 0x44, 0x55, 0x55, 0x55, 0x55, 0x66, 0x66, 0x66, 0x66, 0x77, 0x77,
    0x77, 0x77, 0x88, 0x88, 0x88, 0x88]) = .instr (.x256Seedseq 0x11111111#32 0x22222222#32 0x33333333#32
    0x44444444#32 0x55555555#32 0x66666666#32 0x77777777#32 0x88888888#32) := by decide

theorem test_decode_x256Next : decodeFrame (bytesOf [0x44]) = .instr (.x256Next) := by decide

theorem test_decode_x256Discard : decodeFrame (bytesOf [0x45, 0x10, 0x27, 0x00, 0x00, 0x00, 0x00, 0x00, 0x00]) =
    .instr (.x256Discard 10000#64) := by decide

theorem test_decode_x256Eq : decodeFrame (bytesOf [0x46, 0x01, 0x00, 0x00, 0x00, 0x00, 0x00, 0x00, 0x00, 0x02,
    0x00, 0x00, 0x00, 0x00, 0x00, 0x00, 0x00, 0x03, 0x00, 0x00, 0x00, 0x00, 0x00, 0x00, 0x00, 0x05, 0x00, 0x00,
    0x00, 0x00, 0x00, 0x00, 0x00]) = .instr (.x256Eq 1#64 2#64 3#64 5#64) := by decide

theorem test_decode_x256Save : decodeFrame (bytesOf [0x47]) = .instr (.x256Save) := by decide

theorem test_decode_x256Load : decodeFrame (bytesOf [0x48, 0x01, 0x00, 0x00, 0x00, 0x00, 0x00, 0x00, 0x00, 0x00,
    0x02, 0x00, 0x00, 0x00, 0x00, 0x00, 0x00, 0x00, 0xFF, 0x03, 0x00, 0x00, 0x00, 0x00, 0x00, 0x00, 0x00, 0x20,
    0x04, 0x00, 0x00, 0x00, 0x00, 0x00, 0x00, 0x00, 0x41]) = .instr (.x256Load (bytesOf [0x01, 0x00, 0x00, 0x00,
    0x00, 0x00, 0x00, 0x00, 0x00, 0x02, 0x00, 0x00, 0x00, 0x00, 0x00, 0x00, 0x00, 0xFF, 0x03, 0x00, 0x00, 0x00,
    0x00, 0x00, 0x00, 0x00, 0x20, 0x04, 0x00, 0x00, 0x00, 0x00, 0x00, 0x00, 0x00, 0x41])) := by decide

theorem test_decode_x256Min : decodeFrame (bytesOf [0x49]) = .instr (.x256Min) := by decide

theorem test_decode_x256Max : decodeFrame (bytesOf [0x4A]) = .instr (.x256Max) := by decide

theorem test_decode_x128Init : decodeFrame (bytesOf [0x80]) = .instr (.x128Init) := by decide

theorem test_decode_x128Seed64 : decodeFrame (bytesOf [0x81, 0x2A, 0x00, 0x00, 0x00, 0x2A, 0x00, 0x00, 0x00]) =
    .instr (.x128Seed64 0x0000002A0000002A#64) := by decide

theorem test_decode_x128Seedraw : decodeFrame (bytesOf [0x82, 0x01, 0x00, 0x00, 0x00, 0x02, 0x00, 0x00, 0x00,
    0x03, 0x00, 0x00, 0x00, 0x04, 0x00, 0x00, 0x00]) = .instr (.x128Seedraw 1#32 2#32 3#32 4#32) := by decide

theorem test_decode_x128Seedseq : decodeFrame (bytesOf [0x83, 0x00, 0x00, 0x00, 0x00, 0x00, 0x00, 0x00, 0x00,
    0x00, 0x00, 0x00, 0x00, 0x01, 0x00, 0x00, 0x00]) = .instr (.x128Seedseq 0#32 0#32 0#32 1#32) := by decide

theorem test_decode_x128Next : decodeFrame (bytesOf [0x84]) = .instr (.x128Next) := by decide

theorem test_decode_x128Discard : decodeFrame (bytesOf [0x85, 0x05, 0x00, 0x00, 0x00, 0x00, 0x00, 0x00, 0x00]) =
    .instr (.x128Discard 5#64) := by decide

theorem test_decode_x128Eq : decodeFrame (bytesOf [0x86, 0x01, 0x00, 0x00, 0x00, 0x02, 0x00, 0x00, 0x00, 0x03,
    0x00, 0x00, 0x00, 0x00, 0x00, 0x00, 0x00]) = .instr (.x128Eq 1#32 2#32 3#32 0#32) := by decide

theorem test_decode_x128Save : decodeFrame (bytesOf [0x87]) = .instr (.x128Save) := by decide

theorem test_decode_x128Load : decodeFrame (bytesOf [0x88, 0xEF, 0xBE, 0xAD, 0xDE, 0x20, 0x00, 0x00, 0x00, 0x00,
    0x20, 0x01, 0x00, 0x00, 0x00, 0x20, 0xFF, 0xFF, 0xFF, 0xFF, 0x20]) = .instr (.x128Load (bytesOf [0xEF, 0xBE,
    0xAD, 0xDE, 0x20, 0x00, 0x00, 0x00, 0x00, 0x20, 0x01, 0x00, 0x00, 0x00, 0x20, 0xFF, 0xFF, 0xFF, 0xFF,
    0x20])) := by decide

theorem test_decode_x128Min : decodeFrame (bytesOf [0x89]) = .instr (.x128Min) := by decide

theorem test_decode_x128Max : decodeFrame (bytesOf [0x8A]) = .instr (.x128Max) := by decide

theorem test_decode_x128Seed32 : decodeFrame (bytesOf [0x8B, 0x2A, 0x00, 0x00, 0x00]) = .instr (.x128Seed32
    0x2A#32) := by decide

theorem test_decode_x128Seedraw64 : decodeFrame (bytesOf [0x8C, 0x11, 0x11, 0x11, 0x11, 0x22, 0x22, 0x22, 0x22,
    0x33, 0x33, 0x33, 0x33, 0x44, 0x44, 0x44, 0x44]) = .instr (.x128Seedraw64 0x2222222211111111#64
    0x4444444433333333#64) := by decide

/-! ### Execution -/

/-- V2. -/
theorem test_mix_zero : answers small (bytesOf [0x01, 0x00, 0x00, 0x00, 0x00, 0x00, 0x00, 0x00, 0x00]) = some
    [bytesOf [0x00, 0xAF, 0xCD, 0x1D, 0x7B, 0x39, 0xA8, 0x20, 0xE2]] := by decide

/-- V1, the only argument with result 0. -/
theorem test_mix_to_zero : answers small (bytesOf [0x01, 0xEB, 0x83, 0xB5, 0x80, 0x46, 0x86, 0xC8, 0x61]) = some
    [bytesOf [0x00, 0x00, 0x00, 0x00, 0x00, 0x00, 0x00, 0x00, 0x00]] := by decide

/-- V12, legal neighbour. -/
theorem test_rotl64_63 : answers small (bytesOf [0x02, 0x01, 0x00, 0x00, 0x00, 0x00, 0x00, 0x00, 0x00, 0x3F]) =
    some [bytesOf [0x00, 0x00, 0x00, 0x00, 0x00, 0x00, 0x00, 0x00, 0x80]] := by decide

/-- V10. -/
theorem test_rotl64_23 : answers small (bytesOf [0x02, 0xEF, 0xCD, 0xAB, 0x89, 0x67, 0x45, 0x23, 0x01, 0x17]) =
    some [bytesOf [0x00, 0xA2, 0x91, 0x80, 0xF7, 0xE6, 0xD5, 0xC4, 0xB3]] := by decide

/-- V12, legal neighbour. -/
theorem test_rotl32_31 : answers small (bytesOf [0x03, 0x01, 0x00, 0x00, 0x00, 0x1F]) = some [bytesOf [0x00,
    0x00, 0x00, 0x00, 0x80]] := by decide

/-- V11. -/
theorem test_rotl32_11 : answers small (bytesOf [0x03, 0x78, 0x56, 0x34, 0x12, 0x0B]) = some [bytesOf [0x00,
    0x91, 0xC0, 0xB3, 0xA2]] := by decide

/-- V13. -/
theorem test_high32 : answers small (bytesOf [0x04, 0xEF, 0xCD, 0xAB, 0x89, 0x67, 0x45, 0x23, 0x01]) = some
    [bytesOf [0x00, 0x67, 0x45, 0x23, 0x01]] := by decide

/-- V13. -/
theorem test_low32 : answers small (bytesOf [0x05, 0xEF, 0xCD, 0xAB, 0x89, 0x67, 0x45, 0x23, 0x01]) = some
    [bytesOf [0x00, 0xEF, 0xCD, 0xAB, 0x89]] := by decide

/-- V13. -/
theorem test_join32 : answers small (bytesOf [0x06, 0x67, 0x45, 0x23, 0x01, 0xEF, 0xCD, 0xAB, 0x89]) = some
    [bytesOf [0x00, 0xEF, 0xCD, 0xAB, 0x89, 0x67, 0x45, 0x23, 0x01]] := by decide

/-- V28. -/
theorem test_init256 : exec .x256Init small = .next { small with s256 := Config.defaultState256, responses :=
    [[0x00#8]] } := rfl

/-- V23. -/
theorem test_seed64_256 : s256After small (bytesOf [0x41, 0x2A, 0x00, 0x00, 0x00, 0x00, 0x00, 0x00, 0x00]) =
    some ⟨0x57E1FABA65107204#64, 0x6310BF04D8207F46#64, 0xC16129ECD0DC5B93#64, 0xCBC2FC9DBE310AAE#64⟩ := by
    decide

/-- V23 row 6. -/
theorem test_seed64_256_mix_zero : s256After small (bytesOf [0x41, 0xEB, 0x83, 0xB5, 0x80, 0x46, 0x86, 0xC8,
    0x61]) = some ⟨0xE220A8397B1DCDAF#64, 0xA706DD2F4D197E6F#64, 0x238275BC38FCBE91#64, 0x2130748AAAC80268#64⟩
    := by decide

/-- V25. -/
theorem test_seedraw_256 : s256After (with256 (Vec4.zero 64)) (bytesOf [0x42, 0x01, 0x00, 0x00, 0x00, 0x00,
    0x00, 0x00, 0x00, 0x02, 0x00, 0x00, 0x00, 0x00, 0x00, 0x00, 0x00, 0x03, 0x00, 0x00, 0x00, 0x00, 0x00, 0x00,
    0x00, 0x04, 0x00, 0x00, 0x00, 0x00, 0x00, 0x00, 0x00]) = some ⟨1#64, 2#64, 3#64, 4#64⟩ := by decide

/-- V25. -/
theorem test_seedseq_256 : s256After small (bytesOf [0x43, 0x11, 0x11, 0x11, 0x11, 0x22, 0x22, 0x22, 0x22, 0x33,
    0x33, 0x33, 0x33, 0x44, 0x44, 0x44, 0x44, 0x55, 0x55, 0x55, 0x55, 0x66, 0x66, 0x66, 0x66, 0x77, 0x77, 0x77,
    0x77, 0x88, 0x88, 0x88, 0x88]) = some ⟨0x2222222211111111#64, 0x4444444433333333#64, 0x6666666655555555#64,
    0x8888888877777777#64⟩ := by decide

/-- V20 row 1. -/
theorem test_next256_result : answers small (bytesOf [0x44]) = some [bytesOf [0x00, 0x01, 0x00, 0x80, 0x02,
    0x00, 0x00, 0x00, 0x00]] := by decide

/-- V21. -/
theorem test_next256_step_order : s256After (with256 ⟨0x57E1FABA65107204#64, 0x6310BF04D8207F46#64,
    0xC16129ECD0DC5B93#64, 0xCBC2FC9DBE310AAE#64⟩) (bytesOf [0x44]) = some ⟨0xFF33B923030107EC#64,
    0xF5906C526DEC56D1#64, 0xE88963164B402997#64, 0x2EBD151A48732CC2#64⟩ := by decide

/-- V24, V20 row 5. -/
theorem test_discard256_5 : s256After small (bytesOf [0x45, 0x05, 0x00, 0x00, 0x00, 0x00, 0x00, 0x00, 0x00]) =
    some ⟨0x806090080C0E0302#64, 0x00006000180A0302#64, 0x8010901C000E0305#64, 0x4000E00C06010281#64⟩ := by
    decide

/-- V24. -/
theorem test_discard256_0 : s256After small (bytesOf [0x45, 0x00, 0x00, 0x00, 0x00, 0x00, 0x00, 0x00, 0x00]) =
    some ⟨1#64, 2#64, 3#64, 4#64⟩ := by decide

/-- V25. -/
theorem test_eq256_true : answers small (bytesOf [0x46, 0x01, 0x00, 0x00, 0x00, 0x00, 0x00, 0x00, 0x00, 0x02,
    0x00, 0x00, 0x00, 0x00, 0x00, 0x00, 0x00, 0x03, 0x00, 0x00, 0x00, 0x00, 0x00, 0x00, 0x00, 0x04, 0x00, 0x00,
    0x00, 0x00, 0x00, 0x00, 0x00]) = some [bytesOf [0x00, 0x01]] := by decide

/-- V25: all four words differ. -/
theorem test_eq256_false : answers small (bytesOf [0x46, 0x00, 0x00, 0x00, 0x00, 0x00, 0x00, 0x00, 0x00, 0x00,
    0x00, 0x00, 0x00, 0x00, 0x00, 0x00, 0x00, 0x00, 0x00, 0x00, 0x00, 0x00, 0x00, 0x00, 0x00, 0x00, 0x00, 0x00,
    0x00, 0x00, 0x00, 0x00, 0x00]) = some [bytesOf [0x00, 0x00]] := by decide

/-- V40. -/
theorem test_save256 : answers small (bytesOf [0x47]) = some [bytesOf [0x00, 0x01, 0x00, 0x00, 0x00, 0x00, 0x00,
    0x00, 0x00, 0x20, 0x02, 0x00, 0x00, 0x00, 0x00, 0x00, 0x00, 0x00, 0x20, 0x03, 0x00, 0x00, 0x00, 0x00, 0x00,
    0x00, 0x00, 0x20, 0x04, 0x00, 0x00, 0x00, 0x00, 0x00, 0x00, 0x00, 0x20]] := by decide

/-- V41: separators that are not spaces. -/
theorem test_load256 : s256After (with256 (Vec4.zero 64)) (bytesOf [0x48, 0x01, 0x00, 0x00, 0x00, 0x00, 0x00,
    0x00, 0x00, 0x00, 0x02, 0x00, 0x00, 0x00, 0x00, 0x00, 0x00, 0x00, 0xFF, 0x03, 0x00, 0x00, 0x00, 0x00, 0x00,
    0x00, 0x00, 0x20, 0x04, 0x00, 0x00, 0x00, 0x00, 0x00, 0x00, 0x00, 0x41]) = some ⟨1#64, 2#64, 3#64, 4#64⟩ :=
    by decide

/-- V27. -/
theorem test_min256 : answers small (bytesOf [0x49]) = some [bytesOf [0x00, 0x00, 0x00, 0x00, 0x00, 0x00, 0x00,
    0x00, 0x00]] := by decide

/-- V27. -/
theorem test_max256 : answers small (bytesOf [0x4A]) = some [bytesOf [0x00, 0xFF, 0xFF, 0xFF, 0xFF, 0xFF, 0xFF,
    0xFF, 0xFF]] := by decide

/-- V28 for the other unit. -/
theorem test_init128 : exec .x128Init small = .next { small with s128 := Config.defaultState128, responses :=
    [[0x00#8]] } := rfl

/-- V33. -/
theorem test_seed64_128 : s128After small (bytesOf [0x81, 0x2A, 0x00, 0x00, 0x00, 0x00, 0x00, 0x00, 0x00]) =
    some ⟨0x9535B72D#32, 0xF08E7DBE#32, 0x7C22F11F#32, 0xA740F2F3#32⟩ := by decide

/-- V33 row 7. -/
theorem test_seed64_128_zero_words : s128After small (bytesOf [0x81, 0x44, 0x40, 0x84, 0x98, 0x2E, 0x8D, 0x08,
    0xF2]) = some ⟨0x00000000#32, 0x00000000#32, 0x50B2160C#32, 0xCB123343#32⟩ := by decide

/-- V38. -/
theorem test_seedraw_128 : s128After (with128 (Vec4.zero 32)) (bytesOf [0x82, 0x01, 0x00, 0x00, 0x00, 0x02,
    0x00, 0x00, 0x00, 0x03, 0x00, 0x00, 0x00, 0x04, 0x00, 0x00, 0x00]) = some ⟨1#32, 2#32, 3#32, 4#32⟩ := by
    decide

/-- V38. -/
theorem test_seedseq_128 : s128After small (bytesOf [0x83, 0x00, 0x00, 0x00, 0x00, 0x00, 0x00, 0x00, 0x00, 0x00,
    0x00, 0x00, 0x00, 0x01, 0x00, 0x00, 0x00]) = some ⟨0#32, 0#32, 0#32, 1#32⟩ := by decide

/-- V30 row 1. -/
theorem test_next128_result : answers small (bytesOf [0x84]) = some [bytesOf [0x00, 0x81, 0x02, 0x00, 0x00]] :=
    by decide

/-- V31. -/
theorem test_next128_step_order : s128After (with128 ⟨0x72A537E3#32, 0x2121154D#32, 0x3A9D4A3D#32,
    0xD265E784#32⟩) (bytesOf [0x84]) = some ⟨0x81E1C52A#32, 0x69196893#32, 0x0A12E7DE#32, 0x27964F9A#32⟩ := by
    decide

/-- V34. -/
theorem test_discard128_5 : s128After small (bytesOf [0x85, 0x05, 0x00, 0x00, 0x00, 0x00, 0x00, 0x00, 0x00]) =
    some ⟨0x00E84E0F#32, 0x01C0120E#32, 0x103C2609#32, 0x4310300A#32⟩ := by decide

/-- V34. -/
theorem test_discard128_0 : s128After small (bytesOf [0x85, 0x00, 0x00, 0x00, 0x00, 0x00, 0x00, 0x00, 0x00]) =
    some ⟨1#32, 2#32, 3#32, 4#32⟩ := by decide

/-- V38. -/
theorem test_eq128_true : answers small (bytesOf [0x86, 0x01, 0x00, 0x00, 0x00, 0x02, 0x00, 0x00, 0x00, 0x03,
    0x00, 0x00, 0x00, 0x04, 0x00, 0x00, 0x00]) = some [bytesOf [0x00, 0x01]] := by decide

/-- V38. -/
theorem test_eq128_false : answers small (bytesOf [0x86, 0x01, 0x00, 0x00, 0x00, 0x02, 0x00, 0x00, 0x00, 0x03,
    0x00, 0x00, 0x00, 0x00, 0x00, 0x00, 0x00]) = some [bytesOf [0x00, 0x00]] := by decide

/-- V42. -/
theorem test_save128 : answers small (bytesOf [0x87]) = some [bytesOf [0x00, 0x01, 0x00, 0x00, 0x00, 0x20, 0x02,
    0x00, 0x00, 0x00, 0x20, 0x03, 0x00, 0x00, 0x00, 0x20, 0x04, 0x00, 0x00, 0x00, 0x20]] := by decide

/-- V43. -/
theorem test_load128 : s128After small (bytesOf [0x88, 0xEF, 0xBE, 0xAD, 0xDE, 0x20, 0x00, 0x00, 0x00, 0x00,
    0x20, 0x01, 0x00, 0x00, 0x00, 0x20, 0xFF, 0xFF, 0xFF, 0xFF, 0x20]) = some ⟨0xDEADBEEF#32, 0x00000000#32,
    0x00000001#32, 0xFFFFFFFF#32⟩ := by decide

/-- V37. -/
theorem test_min128 : answers small (bytesOf [0x89]) = some [bytesOf [0x00, 0x00, 0x00, 0x00, 0x00]] := by
    decide

/-- V37. -/
theorem test_max128 : answers small (bytesOf [0x8A]) = some [bytesOf [0x00, 0xFF, 0xFF, 0xFF, 0xFF]] := by
    decide

/-- V35. -/
theorem test_seed32 : s128After small (bytesOf [0x8B, 0x2A, 0x00, 0x00, 0x00]) = some ⟨0x72A537E3#32,
    0x2121154D#32, 0x3A9D4A3D#32, 0xD265E784#32⟩ := by decide

/-- V35. -/
theorem test_seed32_top_bit : s128After small (bytesOf [0x8B, 0x00, 0x00, 0x00, 0x80]) = some ⟨0xD57F7F86#32,
    0xBF50EB7E#32, 0x2B4B91F3#32, 0x7F03DD5C#32⟩ := by decide

/-- V38. -/
theorem test_seedraw64_128 : s128After small (bytesOf [0x8C, 0x11, 0x11, 0x11, 0x11, 0x22, 0x22, 0x22, 0x22,
    0x33, 0x33, 0x33, 0x33, 0x44, 0x44, 0x44, 0x44]) = some ⟨0x11111111#32, 0x22222222#32, 0x33333333#32,
    0x44444444#32⟩ := by decide

/-- V22 row 1. -/
theorem test_next256_absorbing : answers (with256 (Vec4.zero 64)) (bytesOf [0x44]) = some [bytesOf [0x00, 0x00,
    0x00, 0x00, 0x00, 0x00, 0x00, 0x00, 0x00]] ∧ s256After (with256 (Vec4.zero 64)) (bytesOf [0x44]) = some
    (Vec4.zero 64) := by decide

/-- V32 row 2. -/
theorem test_next128_wraps : s128After (with128 ⟨0xFFFFFFFF#32, 0xFFFFFFFF#32, 0xFFFFFFFF#32, 0xFFFFFFFF#32⟩)
    (bytesOf [0x84]) = some ⟨0xFFFFFFFF#32, 0xFFFFFFFF#32, 0xFFFFFE00#32, 0#32⟩ := by decide

theorem test_units_are_independent : s128After small (bytesOf [0x44]) = some small.s128 ∧ s256After small
    (bytesOf [0x84]) = some small.s256 := by decide

/-! ### Errors (V12, V45, V50, P4) -/

theorem test_error_empty : refusedWith ([]) 2 := by decide

theorem test_error_reserved_low : refusedWith (bytesOf [0x00]) 1 ∧ refusedWith (bytesOf [0x07]) 1 ∧ refusedWith
    (bytesOf [0x3F]) 1 := by decide

theorem test_error_reserved_256 : refusedWith (bytesOf [0x4B]) 1 ∧ refusedWith (bytesOf [0x4B, 0x00, 0x00, 0x00,
    0x00, 0x00, 0x00, 0x00, 0x00]) 1 ∧ refusedWith (bytesOf [0x7F]) 1 := by decide

theorem test_error_reserved_high : refusedWith (bytesOf [0x8D]) 1 ∧ refusedWith (bytesOf [0xBF]) 1 ∧ refusedWith
    (bytesOf [0xC0]) 1 ∧ refusedWith (bytesOf [0xC4]) 1 ∧ refusedWith (bytesOf [0xFF]) 1 := by decide

theorem test_error_length : refusedWith (bytesOf [0x44, 0x00]) 2 ∧ refusedWith (bytesOf [0x41, 0x2A, 0x00, 0x00,
    0x00]) 2 ∧ refusedWith (bytesOf [0x8B, 0x2A, 0x00, 0x00, 0x00, 0x00, 0x00, 0x00, 0x00]) 2 ∧ refusedWith
    (0x42#8 :: List.replicate 24 0x00#8) 2 := by decide

/-- V3. -/
theorem test_error_length_mix : refusedWith (bytesOf [0x01, 0x00, 0x00, 0x00, 0x00]) 2 ∧ refusedWith (0x01#8 ::
    List.replicate 9 0x00#8) 2 := by decide

theorem test_error_image : refusedWith (0x48#8 :: List.replicate 20 0x09#8) 2 ∧ refusedWith (0x48#8 ::
    List.replicate 35 0x09#8) 2 ∧ refusedWith (0x48#8 :: List.replicate 37 0x09#8) 2 ∧ refusedWith (0x88#8 ::
    List.replicate 19 0x09#8) 2 ∧ refusedWith (0x88#8 :: List.replicate 36 0x09#8) 2 ∧ refusedWith (bytesOf
    [0x47, 0x00]) 2 := by decide

theorem test_error_rotl64 : refusedWith (bytesOf [0x02, 0x01, 0x00, 0x00, 0x00, 0x00, 0x00, 0x00, 0x00, 0x00]) 3
    ∧ refusedWith (bytesOf [0x02, 0x01, 0x00, 0x00, 0x00, 0x00, 0x00, 0x00, 0x00, 0x40]) 3 ∧ refusedWith
    (bytesOf [0x02, 0x01, 0x00, 0x00, 0x00, 0x00, 0x00, 0x00, 0x00, 0x41]) 3 ∧ refusedWith (bytesOf [0x02, 0x01,
    0x00, 0x00, 0x00, 0x00, 0x00, 0x00, 0x00, 0xFF]) 3 := by decide

theorem test_error_rotl32 : refusedWith (bytesOf [0x03, 0x01, 0x00, 0x00, 0x00, 0x00]) 3 ∧ refusedWith (bytesOf
    [0x03, 0x01, 0x00, 0x00, 0x00, 0x20]) 3 ∧ refusedWith (bytesOf [0x03, 0x01, 0x00, 0x00, 0x00, 0x3F]) 3 := by
    decide

theorem test_error_length_before_range : refusedWith (bytesOf [0x02, 0x01, 0x00, 0x00, 0x00, 0x00, 0x00, 0x00,
    0x00]) 2 := by decide

/-! ### The port and the host's numbering of the table -/

theorem test_reset_request : step (setRequests [.reset] small) = .next (takeReset small) := rfl

theorem test_overlap : step (setRequests [.overlap] small) = .fault .overlappingRequests := rfl

theorem test_idle : step small = .next small := rfl

theorem test_table_words : decodeTableWord 8 0x44 = some .x256Next ∧ decodeTableWord 8 0x02 = some (.primRotl64
    0#64 0#8) ∧ decodeTableWord 8 0x00 = none ∧ decodeTableWord 8 0x8D = none := by decide

theorem test_table_operands : decodeTableWord 48 0x1F8000000103 = some (.primRotl32 0x80000001#32 31#8) ∧
    decodeTableWord 40 0x8000000103 = some (.primRotl32 0x80000001#32 0#8) := by decide

theorem test_table_load : decodeTableWord 8 0x88 = some (.x128Load (List.replicate 20 0x00#8)) := by decide

theorem test_first_step_prim : [0x01, 0x02, 0x03, 0x04, 0x05, 0x06].all (fun w => isNext (step
    (State.reset.withFetchWord 8 w))) = true := by rfl

theorem test_first_step_256 : [0x40, 0x41, 0x42, 0x43, 0x44, 0x45, 0x46, 0x47, 0x48, 0x49, 0x4A].all (fun w =>
    isNext (step (State.reset.withFetchWord 8 w))) = true := by rfl

theorem test_first_step_128 : [0x80, 0x81, 0x82, 0x83, 0x84, 0x85, 0x86, 0x87, 0x88, 0x89, 0x8A, 0x8B, 0x8C].all
    (fun w => isNext (step (State.reset.withFetchWord 8 w))) = true := by rfl

/-! ### Assembler (30_encoding.md R69) -/

theorem test_read_vector : readLine "X256.SEEDRAW [0x1, 0x2, 0x3, 0x4]".toList = some (.x256Seedraw 1#64 2#64
    3#64 4#64) := by decide

theorem test_read_image : readLine "X128.LOAD \"01000000 20 02000000 20 03000000 20 04000000 20\"".toList = some
    (.x128Load (bytesOf [0x01, 0x00, 0x00, 0x00, 0x20, 0x02, 0x00, 0x00, 0x00, 0x20, 0x03, 0x00, 0x00, 0x00,
    0x20, 0x04, 0x00, 0x00, 0x00, 0x20])) := by decide

theorem test_read_response : readLine "X256.NEXT  -> 0x0000000002800001".toList = some .x256Next ∧ readLine
    "PRIM.ROTL64 0x1, 64 -> E_ROTRANGE ; k = 64".toList = some (.primRotl64 1#64 64#8) := by decide

theorem test_read_refuses : readLine "X256.NEXT 0x1".toList = none ∧ readLine "X128.SEED32 0x100000000".toList =
    none ∧ readLine "X256.JUMP".toList = none ∧ readLine "X256.SEEDRAW [0x1, 0x2, 0x3]".toList = none := by
    decide

theorem test_print_line : printLine (.primJoin32 0x01234567#32 0x89ABCDEF#32) =
    "PRIM.JOIN32 0x01234567, 0x89ABCDEF".toList := by decide

theorem test_print_listing : printListing .x256Next (bytesOf [0x00, 0x01, 0x00, 0x80, 0x02, 0x00, 0x00, 0x00,
    0x00]) = "X256.NEXT -> 0x0000000002800001".toList ∧ printListing .x256Next [0x02#8] =
    "X256.NEXT -> E_LENGTH".toList := by decide

theorem test_print_flag : printResponse (bytesOf [0x00, 0x01]) = " -> 0x01".toList ∧ printResponse [0x00#8] = []
    := by decide

theorem test_assemble : assemble "X128.SEED32 0x2A ; P2\n\nX128.DISCARD 5" = some [bytesOf [0x8B, 0x2A, 0x00,
    0x00, 0x00], bytesOf [0x85, 0x05, 0x00, 0x00, 0x00, 0x00, 0x00, 0x00, 0x00]] := by decide

/-! ### Witnesses: for every statement with hypotheses, something that meets them -/

/-- A state in which exactly these requests are pending. -/
def pending (rs : List Request) : State := setRequests rs small

/-- The two cases of a frame rule: an area of the required length and one of another length. -/
abbrev FrameWitness (op : Nat) (n : Nat) (good bad : List Byte) : Prop :=
  (pending [.frame (BitVec.ofNat 8 op :: good)]).requests = .frame (BitVec.ofNat 8 op :: good) :: [] ∧
    good.length = n ∧
    (pending [.frame (BitVec.ofNat 8 op :: bad)]).requests = .frame (BitVec.ofNat 8 op :: bad) :: [] ∧
    bad.length ≠ n

def zeros (n : Nat) : List Byte := List.replicate n 0x00#8

theorem test_witness_MixCommand :
    FrameWitness 0x01 8 (zeros 8) (zeros 4) ∧ FrameWitness 0x01 8 (zeros 8) (zeros 9) := by decide

theorem test_witness_Rotl64Command_inside :
    (0 < (1#8).toNat ∧ (1#8).toNat < 64) ∧ (0 < (63#8).toNat ∧ (63#8).toNat < 64) := by decide

theorem test_witness_Rotl64Command_outside :
    ((0#8).toNat = 0 ∨ 64 ≤ (0#8).toNat) ∧ ((64#8).toNat = 0 ∨ 64 ≤ (64#8).toNat) ∧
      ((255#8).toNat = 0 ∨ 64 ≤ (255#8).toNat) := by decide

theorem test_witness_Rotl64Command_bits : (0 < 1 ∧ 1 < 64 ∧ 0 < 64) ∧ (0 < 63 ∧ 63 < 64 ∧ 63 < 64) := by decide

theorem test_witness_Rotl64Command_frame :
    FrameWitness 0x02 9 (zeros 9) (zeros 8) ∧ (readValue 8 (zeros 9) 8).toNat = 0 ∧
      (readValue 8 (zeros 8 ++ [63#8]) 8).toNat = 63 ∧ (readValue 8 (zeros 8 ++ [64#8]) 8).toNat = 64 := by decide

theorem test_witness_Rotl32Command_inside :
    (0 < (1#8).toNat ∧ (1#8).toNat < 32) ∧ (0 < (31#8).toNat ∧ (31#8).toNat < 32) := by decide

theorem test_witness_Rotl32Command_outside :
    ((0#8).toNat = 0 ∨ 32 ≤ (0#8).toNat) ∧ ((32#8).toNat = 0 ∨ 32 ≤ (32#8).toNat) ∧
      ((255#8).toNat = 0 ∨ 32 ≤ (255#8).toNat) := by decide

theorem test_witness_Rotl32Command_bits : (0 < 1 ∧ 1 < 32 ∧ 0 < 32) ∧ (0 < 31 ∧ 31 < 32 ∧ 31 < 32) := by decide

theorem test_witness_Rotl32Command_frame :
    FrameWitness 0x03 5 (zeros 5) (zeros 4) ∧ (readValue 8 (zeros 5) 4).toNat = 0 ∧
      (readValue 8 (zeros 4 ++ [31#8]) 4).toNat = 31 ∧ (readValue 8 (zeros 4 ++ [32#8]) 4).toNat = 32 := by decide

theorem test_witness_HalfwordCommands :
    FrameWitness 0x04 8 (zeros 8) (zeros 7) ∧ FrameWitness 0x05 8 (zeros 8) (zeros 9) := by decide

theorem test_witness_JoinCommand : FrameWitness 0x06 8 (zeros 8) (zeros 7) := by decide

theorem test_witness_InitCommands : FrameWitness 0x40 0 [] (zeros 1) ∧ FrameWitness 0x80 0 [] (zeros 1) := by decide

theorem test_witness_Seed64Command256 : FrameWitness 0x41 8 (zeros 8) (zeros 4) := by decide

theorem test_witness_SeedrawCommand256 : FrameWitness 0x42 32 (zeros 32) (zeros 24) := by decide

theorem test_witness_SeedseqCommand256 : FrameWitness 0x43 32 (zeros 32) (zeros 16) := by decide

theorem test_witness_Seed64Command128 : FrameWitness 0x81 8 (zeros 8) (zeros 4) := by decide

theorem test_witness_Seed32Command128 : FrameWitness 0x8B 4 (zeros 4) (zeros 8) := by decide

theorem test_witness_RawSeedCommands128 :
    FrameWitness 0x82 16 (zeros 16) (zeros 32) ∧ FrameWitness 0x83 16 (zeros 16) (zeros 15) := by decide

theorem test_witness_Seedraw64Command128 : FrameWitness 0x8C 16 (zeros 16) (zeros 8) := by decide

theorem test_witness_NextCommand256 : FrameWitness 0x44 0 [] (zeros 1) := by decide

theorem test_witness_NextCommand128 : FrameWitness 0x84 0 [] (zeros 1) := by decide

theorem test_witness_DiscardCommand256 : FrameWitness 0x45 8 (zeros 8) (zeros 0) := by decide

theorem test_witness_DiscardCommand128 : FrameWitness 0x85 8 (zeros 8) (zeros 4) := by decide

theorem test_witness_EqCommands :
    FrameWitness 0x46 32 (zeros 32) (zeros 31) ∧ FrameWitness 0x86 16 (zeros 16) (zeros 17) := by decide

theorem test_witness_RangeCommands_256 :
    FrameWitness 0x49 0 [] (zeros 1) ∧ FrameWitness 0x4A 0 [] (zeros 1) := by decide

theorem test_witness_RangeCommands_128 :
    FrameWitness 0x89 0 [] (zeros 1) ∧ FrameWitness 0x8A 0 [] (zeros 1) := by decide

theorem test_witness_SaveCommands : FrameWitness 0x47 0 [] (zeros 1) ∧ FrameWitness 0x87 0 [] (zeros 1) := by decide

theorem test_witness_LoadCommands_lengths : (zeros 36).length = 36 ∧ (zeros 20).length = 20 := by decide

theorem test_witness_LoadOfIllFormedImage :
    (zeros 35).length ≠ 36 ∧ (zeros 37).length ≠ 36 ∧ (zeros 19).length ≠ 20 ∧ (zeros 21).length ≠ 20 := by decide

theorem test_witness_LoadCommands_frames :
    FrameWitness 0x48 36 (zeros 36) (zeros 20) ∧ FrameWitness 0x88 20 (zeros 20) (zeros 36) := by decide

theorem test_witness_LoadThenSaveNormalises :
    (zeros 36).length = 36 ∧ (zeros 20).length = 20 ∧ (0 < 36 ∧ 0 % 9 ≠ 8) ∧ (35 < 36 ∧ 35 % 9 = 8) ∧
      (0 < 20 ∧ 0 % 5 ≠ 4) ∧ (19 < 20 ∧ 19 % 5 = 4) := by decide

theorem test_witness_ResetGivesDefaults : (pending [.reset]).requests = .reset :: [] := rfl

theorem test_witness_PortWithoutFrame :
    (pending []).requests = [] ∧ (pending [.reset]).requests = .reset :: [] ∧
      (pending [.overlap]).requests = .overlap :: [] := by decide

theorem test_witness_StepRunsDecodedCommand :
    (pending [.frame [0x44#8], .reset]).requests = .frame [0x44#8] :: [.reset] ∧
      decodeFrame [0x44#8] = .instr .x256Next ∧ Instr.x256Next.wf = true := by decide

theorem test_witness_DecodeProcedureOrder_rejections :
    (pending [.frame []]).requests = .frame [] :: [] ∧
      (pending [.frame [0x00#8]]).requests = .frame (0x00#8 :: []) :: [] ∧ rowOf 0x00#8 = none ∧
      (pending [.frame [0x44#8, 0x00#8]]).requests = .frame (0x44#8 :: [0x00#8]) :: [] ∧
      rowOf 0x44#8 = some (0x44, .x256Next, 0, 8) ∧ [0x00#8].length ≠ 0 := by decide

theorem test_witness_DecodeProcedureOrder_execution :
    (pending [.frame [0x44#8]]).requests = .frame (0x44#8 :: []) :: [] ∧
      rowOf 0x44#8 = some (0x44, .x256Next, 0, 8) ∧ ([] : List Byte).length = 0 ∧
      ¬ amountOutOfRange .x256Next [] := by decide

/-- PRIM.ROTL64 at the bounds of its amount: 0 and 64 reach `E_ROTRANGE`, 1 and 63 do not. -/
theorem test_witness_DecodeProcedureOrder_rotl64 :
    (pending [.frame (0x02#8 :: (zeros 8 ++ [64#8]))]).requests = .frame (0x02#8 :: (zeros 8 ++ [64#8])) :: [] ∧
      rowOf 0x02#8 = some (0x02, .primRotl64, 9, 8) ∧ (zeros 8 ++ [64#8]).length = 9 ∧
      amountOutOfRange .primRotl64 (zeros 8 ++ [0#8]) ∧ amountOutOfRange .primRotl64 (zeros 8 ++ [64#8]) ∧
      ¬ amountOutOfRange .primRotl64 (zeros 8 ++ [1#8]) ∧ ¬ amountOutOfRange .primRotl64 (zeros 8 ++ [63#8]) := by
  decide

/-- PRIM.ROTL32 at the bounds of its amount: 0 and 32 reach `E_ROTRANGE`, 1 and 31 do not. -/
theorem test_witness_DecodeProcedureOrder_rotl32 :
    (pending [.frame (0x03#8 :: (zeros 4 ++ [32#8]))]).requests = .frame (0x03#8 :: (zeros 4 ++ [32#8])) :: [] ∧
      rowOf 0x03#8 = some (0x03, .primRotl32, 5, 4) ∧ (zeros 4 ++ [32#8]).length = 5 ∧
      amountOutOfRange .primRotl32 (zeros 4 ++ [0#8]) ∧ amountOutOfRange .primRotl32 (zeros 4 ++ [32#8]) ∧
      ¬ amountOutOfRange .primRotl32 (zeros 4 ++ [1#8]) ∧ ¬ amountOutOfRange .primRotl32 (zeros 4 ++ [31#8]) := by
  decide

theorem test_witness_ReservedOpcodes_bounds :
    [0x00, 0x07, 0x3F, 0x4B, 0x7F, 0x8D, 0xBF, 0xC0, 0xFF].all (fun c => decide (reservedCode c)) = true ∧
      [0x01, 0x06, 0x40, 0x4A, 0x80, 0x8C].all (fun c => !decide (reservedCode c)) = true := by decide

theorem test_witness_ReservedOpcodesAnswerIllegal :
    reservedCode (0x4B#8).toNat ∧
      (pending [.frame (0x4B#8 :: zeros 8)]).requests = .frame (0x4B#8 :: zeros 8) :: [] := by decide

theorem test_witness_WrongLengthAnswersLength :
    (pending [.frame []]).requests = .frame [] :: [] ∧ (0x48, .x256Load, 36, 0) ∈ opcodeMap ∧
      (zeros 20).length ≠ 36 ∧
      (pending [.frame (0x48#8 :: zeros 20)]).requests = .frame (BitVec.ofNat 8 0x48 :: zeros 20) :: [] := by decide

theorem test_witness_OpcodeMapRows :
    (0x8C, .x128Seedraw64, 16, 0) ∈ opcodeMap ∧ (zeros 16).length = 16 ∧ rowOf 0x8D#8 = none := by decide

theorem test_witness_OpcodeFields : unitOfCode 0xC0#8 = .reserved ∧ unitOfCode 0xFF#8 = .reserved := by decide

theorem test_witness_DecodeOfEncode :
    (Instr.x256Load (zeros 36)).wf = true ∧ (Instr.x128Load (zeros 20)).wf = true ∧
      (Instr.primRotl64 0x8000000000000001#64 255#8).wf = true := by decide

theorem test_witness_EncodeOfDecode :
    decodeFrame [0x03#8, 1#8, 0#8, 0#8, 0#8, 31#8] = .instr (.primRotl32 1#32 31#8) := by decide

theorem test_witness_ReaderInvertsPrinter :
    (Instr.x128Load (zeros 20)).wf = true ∧ Instr.x256Next.wf = true ∧
      printLine .x256Next = printLine .x256Next := ⟨by decide, by decide, rfl⟩

theorem test_witness_OneResponsePerFrame :
    (pending [.frame [0x44#8]]).requests = .frame [0x44#8] :: [] ∧
      (pending [.frame []]).requests = .frame [] :: [] := by decide

theorem test_witness_ErrorResponseChangesNothing :
    (pending [.frame [0xC4#8]]).requests = .frame [0xC4#8] :: [] ∧ [0x01#8].head? ≠ some 0x00#8 := by decide

/-- A command that changes `s256`, and reset from the all-zero vectors, which changes both. -/
theorem test_witness_WritersOfTheVectors_command :
    ∃ t, step (pending [.frame [0x44#8]]) = .next t ∧ t.s256 ≠ (pending [.frame [0x44#8]]).s256 :=
  ⟨after .x256Next (pending []), rfl, by decide⟩

theorem test_witness_WritersOfTheVectors_reset :
    ∃ t, step (writeS128 (Vec4.zero 32) (writeS256 (Vec4.zero 64) (pending [.reset]))) = .next t ∧
      t.s256 ≠ Vec4.zero 64 ∧ t.s128 ≠ Vec4.zero 32 :=
  ⟨_, rfl, Config.defaultState256_ne_zero, Config.defaultState128_ne_zero⟩

theorem test_witness_AccessTable_256 :
    (Instr.x256Eq 1#64 2#64 3#64 4#64).wf = true ∧ instrOp (.x256Eq 1#64 2#64 3#64 4#64) ∉ writers256 ∧
      (Instr.x256Load (zeros 36)).wf = true ∧ instrOp (.x256Load (zeros 36)) ∉ readers256 ∧
      instrOp (.x256Load (zeros 36)) ∈ writers256 := by decide

theorem test_witness_AccessTable_128 :
    Instr.x128Save.wf = true ∧ instrOp .x128Save ∉ writers128 ∧ (Instr.x128Seed32 0#32).wf = true ∧
      instrOp (.x128Seed32 0#32) ∉ readers128 ∧ instrOp (.x128Seed32 0#32) ∈ writers128 := by decide

theorem test_witness_AnswersStayLegal :
    (pushResponse [0x03#8] (pending [.frame [0x44#8]])).answersLegal ∧
      isNext (step (pushResponse [0x03#8] (pending [.frame [0x44#8]]))) = true := by
  refine ⟨fun r h => ?_, by decide⟩
  rw [List.mem_singleton.mp h]
  decide

/-- A command that takes no vector from the host meets the host's condition. -/
theorem avoidsZero_next : Request.avoidsZero256 (.frame [0x44#8]) ∧ Request.avoidsZero128 (.frame [0x84#8]) := by
  constructor
  · intro bytes i v hb hd hr
    injection hb with hb
    subst hb
    have hi : i = .x256Next := by
      have : Decoded.instr .x256Next = .instr i :=
        (show decodeFrame [0x44#8] = .instr .x256Next by decide).symm.trans hd
      injection this with this
      exact this.symm
    subst hi
    rcases hr with h | ⟨_, _, _, _, _, _, _, _, h, _⟩ | ⟨_, h, _⟩ <;> cases h
  · intro bytes i v hb hd hr
    injection hb with hb
    subst hb
    have hi : i = .x128Next := by
      have : Decoded.instr .x128Next = .instr i :=
        (show decodeFrame [0x84#8] = .instr .x128Next by decide).symm.trans hd
      injection this with this
      exact this.symm
    subst hi
    rcases hr with (h | h | ⟨_, _, h, _⟩ | ⟨_, h, _⟩) | (⟨_, h, _⟩ | ⟨_, h, _⟩) <;> cases h

theorem test_witness_Engine256StaysInUse :
    (pending [.frame [0x44#8], .reset]).inUse256 ∧ isNext (step (pending [.frame [0x44#8], .reset])) = true := by
  refine ⟨⟨by decide, fun r hr => ?_⟩, by decide⟩
  rcases List.mem_cons.mp hr with rfl | hr
  · exact avoidsZero_next.1
  · rw [List.mem_singleton.mp hr]
    intro bytes i v h
    cases h

theorem test_witness_Engine128StaysInUse :
    (pending [.frame [0x84#8], .reset]).inUse128 ∧ isNext (step (pending [.frame [0x84#8], .reset])) = true := by
  refine ⟨⟨by decide, fun r hr => ?_⟩, by decide⟩
  rcases List.mem_cons.mp hr with rfl | hr
  · exact avoidsZero_next.2
  · rw [List.mem_singleton.mp hr]
    intro bytes i v h
    cases h

theorem test_witness_EveryFrameIsAnswered :
    (pending [.frame [], .frame [0xC4#8], .frame [0x44#8], .reset]).requests =
      [[], [0xC4#8], [0x44#8]].map Request.frame ++ [.reset] := rfl

theorem test_witness_ObeyedProtocolNeverStops : (pending [.frame [], .reset, .frame [0x44#8]]).hostObeys := by decide

theorem test_witness_ErrorFreeFrames :
    (pending [.frame [0x03#8, 1#8, 0#8, 0#8, 0#8, 31#8]]).requests = .frame [0x03#8, 1#8, 0#8, 0#8, 0#8, 31#8] :: [] ∧
      (pending [.frame [0x03#8, 1#8, 0#8, 0#8, 0#8, 32#8]]).requests = .frame [0x03#8, 1#8, 0#8, 0#8, 0#8, 32#8] :: [] ∧
      (pending [.frame [0x4B#8]]).requests = .frame [0x4B#8] :: [] := by decide

theorem test_witness_BlocksShareNothing :
    [small, pending [.reset]][0]? = some small ∧ step small = .next small ∧ 0 ≠ 1 ∧
      [small, pending [.reset]][1]? = some (pending [.reset]) ∧
      step (pending [.reset]) = .next (takeReset (pending [])) := ⟨rfl, rfl, by decide, rfl, rfl⟩

theorem test_witness_NextIsBijective :
    exec .x256Next small = .next (after .x256Next small) ∧ exec .x128Next small = .next (after .x128Next small) :=
  ⟨exec_eq _ _, exec_eq _ _⟩

theorem test_witness_AllZeroIsAbsorbing :
    (with256 (Vec4.zero 64)).s256 = Vec4.zero 64 ∧ (with128 (Vec4.zero 32)).s128 = Vec4.zero 32 := ⟨rfl, rfl⟩

theorem test_witness_SeededEngineNeverDegenerates :
    ∀ i ∈ [Instr.x256Next, .x256Discard 0xFFFFFFFFFFFFFFFF#64], i = .x256Next ∨ ∃ n, i = .x256Discard n := by
  intro i h
  simp only [List.mem_cons, List.not_mem_nil, or_false] at h
  exact h.imp id (fun h => ⟨_, h⟩)

theorem test_witness_HalfwordAndRotationIdentities :
    ((0 < 1 ∧ 1 < 64) ∧ (0 < 64 - 1 ∧ 64 - 1 < 64)) ∧ ((0 < 63 ∧ 63 < 64) ∧ (0 < 64 - 63 ∧ 64 - 63 < 64)) ∧
      ((0 < 1 ∧ 1 < 32) ∧ (0 < 32 - 1 ∧ 32 - 1 < 32)) ∧ ((0 < 31 ∧ 31 < 32) ∧ (0 < 32 - 31 ∧ 32 - 31 < 32)) ∧
      (0 < 32 ∧ 32 < 64) := by decide

theorem test_witness_FrameLength : (Instr.x256Load (zeros 36)).wf = true ∧ Instr.x128Init.wf = true := by decide

end Sys2Proof.Tests
end

/-! ## State and reset (10_state.md): the writers of the two vectors, and the reset values -/

namespace Sys2Proof.Machine

/-- A reset request takes one step, whatever the state (70_reset_and_hazards.md R250). -/
theorem step_reset {s : State} {rest : List Request} (h : s.requests = .reset :: rest) :
    step s = .next (takeReset (setRequests rest s)) :=
  serveHost_reset h

theorem new256_of_notMem_writers256 {i : Instr} (h : instrOp i ∉ writers256) (v : Vec4 64) : new256 i v = v := by
  cases i with
  | x256Init | x256Seed64 | x256Seedraw | x256Seedseq | x256Next | x256Discard | x256Load =>
    exact absurd (by simp [instrOp, writers256]) h
  | _ => rfl

theorem new128_of_notMem_writers128 {i : Instr} (h : instrOp i ∉ writers128) (v : Vec4 32) : new128 i v = v := by
  cases i with
  | x128Init | x128Seed64 | x128Seed32 | x128Seedraw | x128Seedraw64 | x128Seedseq | x128Next | x128Discard
  | x128Load => exact absurd (by simp [instrOp, writers128]) h
  | _ => rfl

/-- The argument of R23 for either vector: what neither the move of the requests, nor an error, nor a command outside
`writers` changes is changed by a step only under a reset request or under a frame of one of `writers`. -/
theorem reset_or_writer_of_step_changes {α : Type} (field : State → α) (writers : List Op)
    (requests_keep : ∀ rest s, field (setRequests rest s) = field s)
    (error_keeps : ∀ e s, field (raiseError e s) = field s)
    (others_keep : ∀ i s, instrOp i ∉ writers → field (after i s) = field s)
    {s t : State} (h : step s = .next t) (changed : field t ≠ field s) :
    (∃ rest, s.requests = .reset :: rest) ∨
      ∃ bytes rest i, s.requests = .frame bytes :: rest ∧ decodeFrame bytes = .instr i ∧ instrOp i ∈ writers := by
  rcases step_cases h with ⟨-, rfl⟩ | ⟨bytes, rest, i, hreq, hdec, rfl⟩ | ⟨_, rest, r, -, -, rfl⟩ | ⟨rest, hreq, -⟩
  · exact absurd rfl changed
  · refine .inr ⟨bytes, rest, i, hreq, hdec, ?_⟩
    by_contra hi
    exact changed ((others_keep i _ hi).trans (requests_keep rest s))
  · exact absurd ((error_keeps _ _).trans (requests_keep rest s)) changed
  · exact .inl ⟨rest, hreq⟩

/-- Settles O41, by cases on what a step can do (`step_cases`): of these, only the execution of a command can change a
vector without a reset, and a command outside the list leaves the vector as it was. -/
theorem writersOfTheVectors : Obligations.WritersOfTheVectors := by
  intro s t h
  constructor
  · exact reset_or_writer_of_step_changes State.s256 writers256 setRequests_s256 raiseError_s256
      (fun i s hi => (after_s256 i s).trans (new256_of_notMem_writers256 hi s.s256)) h
  · exact reset_or_writer_of_step_changes State.s128 writers128 setRequests_s128 raiseError_s128
      (fun i s hi => (after_s128 i s).trans (new128_of_notMem_writers128 hi s.s128)) h

/-- Settles O26: the defaults are not all-zero by the form they are built in, and a reset request takes them in one
step. -/
theorem resetGivesDefaults : Obligations.ResetGivesDefaults := by
  refine ⟨reset_s256, reset_s128, Config.defaultState256_ne_zero, Config.defaultState128_ne_zero, ?_⟩
  intro s rest h
  exact ⟨_, step_reset h, takeReset_s256 _, takeReset_s128 _⟩

end Sys2Proof.Machine

/-! ## The encoding (30_encoding.md): the opcode byte, the opcode map, the decode procedure and the one response -/

namespace Sys2Proof.Machine

open Spec

/-! ### The opcode byte and the map -/

/-- The row that the model's tables of opcodes and lengths give a command. -/
def mapRow (o : Op) : Nat × Op × Nat × Nat := ((opCode o).toNat, o, operandLength o, resultLength o)

/-- The rule's table R66 is the model's. -/
theorem opcodeMap_eq_map_mapRow : opcodeMap = allOps.map mapRow := rfl

theorem ofNat_mapRow_fst (o : Op) : BitVec.ofNat 8 (mapRow o).1 = opCode o := by
  simp [mapRow]

theorem mem_opcodeMap {row : Nat × Op × Nat × Nat} : row ∈ opcodeMap ↔ ∃ o, mapRow o = row := by
  simp [opcodeMap_eq_map_mapRow, mem_allOps]

/-- Looking an opcode up in the rule's table selects the command the decoder selects. -/
theorem rowOf_eq_map_opOfCode (code : Byte) : rowOf code = (opOfCode code).map mapRow := by
  have same_test : (fun row : Nat × Op × Nat × Nat => row.1 == code.toNat) ∘ mapRow = fun o => opCode o == code := by
    funext o
    simp [mapRow, BitVec.toNat_inj, Bool.beq_eq_decide_eq]
  rw [rowOf, opcodeMap_eq_map_mapRow, List.find?_map, same_test, opOfCode]

theorem rowOf_eq_none_iff {code : Byte} : rowOf code = none ↔ opOfCode code = none := by
  simp [rowOf_eq_map_opOfCode]

theorem rowOf_eq_some_iff {code : Byte} {row : Nat × Op × Nat × Nat} :
    rowOf code = some row ↔ ∃ o, opCode o = code ∧ mapRow o = row := by
  simp [rowOf_eq_map_opOfCode, opOfCode_eq_some]

/-- R67: what is left of the 256 byte values when the 30 opcodes are taken out. -/
theorem opOfCode_eq_none_iff {code : Byte} : opOfCode code = none ↔ reservedCode code.toNat := by
  have hlt := code.isLt
  rw [opOfCode, List.find?_eq_none]
  simp only [allOps, List.cons_append, List.nil_append, List.mem_cons, List.not_mem_nil, or_false,
    forall_eq_or_imp, forall_eq, opCode, beq_iff_eq, ← BitVec.toNat_inj, BitVec.toNat_ofNat, reservedCode]
  omega

/-- R61: bits 7:6 are the two-bit number `code / 64`. -/
theorem unitField_eq_iff (code : Byte) (n : Nat) (hn : n < 4) :
    code.extractLsb' 6 2 = BitVec.ofNat 2 n ↔ code.toNat / 64 = n := by
  have hlt := code.isLt
  simp only [← BitVec.toNat_inj, BitVec.extractLsb'_toNat, BitVec.toNat_ofNat, Nat.shiftRight_eq_div_pow]
  omega

theorem unitOfCode_eq (code : Byte) : unitOfCode code =
    if code.toNat / 64 = 0 then .prim else if code.toNat / 64 = 1 then .x256
    else if code.toNat / 64 = 2 then .x128 else .reserved := by
  simp only [unitOfCode, unitField_eq_iff code _ (show 0 < 4 by decide), unitField_eq_iff code _ (show 1 < 4 by decide),
    unitField_eq_iff code _ (show 2 < 4 by decide)]

theorem funcOfCode_toNat (code : Byte) : (funcOfCode code).toNat = code.toNat % 64 := by
  rw [funcOfCode, BitVec.extractLsb'_toNat, Nat.shiftRight_zero]

theorem unitOfCode_opCode_ne_reserved (o : Op) : unitOfCode (opCode o) ≠ .reserved := by
  cases o <;> decide

/-- Settles O34: the two fields are the quotient and the remainder by 64 (`unitOfCode_eq`, `funcOfCode_toNat`), an
opcode of unit `11` is none of the commands' opcodes, and the rest reads the 30 opcodes off. -/
theorem opcodeFields : Obligations.OpcodeFields := by
  refine ⟨unitOfCode_eq, funcOfCode_toNat, ?_, by decide, by decide, by decide, by decide⟩
  intro code hreserved
  by_contra hsome
  obtain ⟨o, ho⟩ := Option.ne_none_iff_exists'.mp hsome
  exact unitOfCode_opCode_ne_reserved o (opCode_of_opOfCode ho ▸ hreserved)

/-! ### The decode procedure -/

/-- The formula of R63 is the model's read. -/
theorem readValue_eq_opRead (w : Nat) (area : List Byte) (off : Nat) : readValue w area off = opRead w area off := by
  rw [readValue, opRead, leValue_eq_sum]

theorem mapOperands_eq_readOperands (o : Op) (area : List Byte) : mapOperands o area = readOperands o area := by
  cases o <;> simp only [mapOperands, readOperands, readValue_eq_opRead]

theorem decodeFrame_of_reserved {code : Byte} (area : List Byte) (h : opOfCode code = none) :
    decodeFrame (code :: area) = .reject .reservedOpcode := by
  simp [decodeFrame, h]

theorem decodeFrame_of_length_eq {o : Op} {area : List Byte} (h : area.length = operandLength o) :
    decodeFrame (opCode o :: area) = .instr (mapOperands o area) := by
  rw [decodeFrame_opCode, if_pos h, mapOperands_eq_readOperands]

theorem decodeFrame_of_length_ne {o : Op} {area : List Byte} (h : area.length ≠ operandLength o) :
    decodeFrame (opCode o :: area) = .reject .wrongLength := by
  rw [decodeFrame_opCode, if_neg h]

theorem wf_of_decodeFrame {bytes : List Byte} {i : Instr} (h : decodeFrame bytes = .instr i) : i.wf = true := by
  obtain ⟨o, area, -, hlen, rfl⟩ := decodeFrame_instr_cases h
  exact readOperands_wf hlen

/-- Settles O33: the map is the model's tables row by row (`opcodeMap_eq_map_mapRow`), so every row is `mapRow o`
for one command `o`, and the decoder's equation for the opcode of `o` applies. -/
theorem opcodeMapRows : Obligations.OpcodeMapRows := by
  refine ⟨?_, ?_, fun o => ⟨mapRow o, mem_opcodeMap.mpr ⟨o, rfl⟩, rfl⟩, ?_, rfl, rfl, rfl⟩
  · intro row hrow
    obtain ⟨o, rfl⟩ := mem_opcodeMap.mp hrow
    rw [ofNat_mapRow_fst]
    exact ⟨opOfCode_opCode o, rfl, rfl, rfl⟩
  · intro row hrow area hlen
    obtain ⟨o, rfl⟩ := mem_opcodeMap.mp hrow
    rw [ofNat_mapRow_fst]
    exact decodeFrame_of_length_eq hlen
  · exact fun code area h => decodeFrame_of_reserved area (rowOf_eq_none_iff.mp h)

/-! ### The step on a frame -/

section

variable {s : State} {bytes : List Byte} {rest : List Request}

theorem step_of_decodeFrame_instr {i : Instr} (hreq : s.requests = .frame bytes :: rest)
    (hdec : decodeFrame bytes = .instr i) : step s = .next (after i (setRequests rest s)) := by
  rw [step, serveHost_frame hreq, transaction_instr _ hdec]

/-- A frame that is no command adds the one byte of its error to the record and changes nothing else (R224). -/
theorem step_of_decodeFrame_reject {r : Reject} (hreq : s.requests = .frame bytes :: rest)
    (hdec : decodeFrame bytes = .reject r) :
    step s = .next (answered { s with requests := rest } [statusCode (rejectStatus r)]) := by
  rw [step, serveHost_frame hreq, transaction_reject _ hdec]
  rfl

end

/-- Settles O31: the reserved values are those no command has (`opOfCode_eq_none_iff`), and the decoder rejects them
before it looks at the length. -/
theorem reservedOpcodesAnswerIllegal : Obligations.ReservedOpcodesAnswerIllegal := by
  refine ⟨fun _ => opOfCode_eq_none_iff, rfl, ?_⟩
  intro s code area rest hreserved hreq
  exact step_of_decodeFrame_reject hreq (decodeFrame_of_reserved area (opOfCode_eq_none_iff.mpr hreserved))

/-! ### The response to a command -/

/-- The command is a rotation by an amount outside its domain (R105, R225). -/
def rotatesOutOfRange : Instr → Prop
  | .primRotl64 _ k => k.toNat = 0 ∨ 64 ≤ k.toNat
  | .primRotl32 _ k => k.toNat = 0 ∨ 32 ≤ k.toNat
  | _ => False

theorem rotatesOutOfRange_mapOperands (o : Op) (area : List Byte) :
    rotatesOutOfRange (mapOperands o area) ↔ amountOutOfRange o area := by
  cases o <;> simp [mapOperands, rotatesOutOfRange, amountOutOfRange]

theorem answer_of_rotatesOutOfRange {i : Instr} (h : rotatesOutOfRange i) (v : Vec4 64) (u : Vec4 32) :
    answer i v u = [0x03#8] := by
  cases i with
  | primRotl64 x k => exact dif_neg (by simp only [rotatesOutOfRange] at h; omega)
  | primRotl32 x k => exact dif_neg (by simp only [rotatesOutOfRange] at h; omega)
  | _ => exact h.elim

/-- An out-of-range rotation changes nothing but the record of responses. -/
theorem after_of_rotatesOutOfRange {i : Instr} (h : rotatesOutOfRange i) (s : State) :
    after i s = answered s [0x03#8] := by
  have hanswer := answer_of_rotatesOutOfRange h s.s256 s.s128
  cases i with
  | primRotl64 | primRotl32 => rw [after, hanswer]; rfl
  | _ => exact h.elim

@[simp] theorem ser256_length (v : Vec4 64) : (ser256 v).length = 36 := by simp [ser256, serialize]

@[simp] theorem ser128_length (v : Vec4 32) : (ser128 v).length = 20 := by simp [ser128, serialize]

/-- Every other command of the block is answered `OK` and the result area of its row in R66. -/
theorem answer_ok {i : Instr} (hwf : i.wf = true) (h : ¬ rotatesOutOfRange i) (v : Vec4 64) (u : Vec4 32) :
    ∃ result, answer i v u = 0x00#8 :: result ∧ result.length = resultLength (instrOp i) := by
  cases i with
  | primRotl64 x k => exact ⟨_, dif_pos (by simp only [rotatesOutOfRange] at h; omega), bytes64_length _⟩
  | primRotl32 x k => exact ⟨_, dif_pos (by simp only [rotatesOutOfRange] at h; omega), bytes32_length _⟩
  | x256Load img => exact ⟨[], if_pos (by simpa [deser256, Instr.wf] using hwf), rfl⟩
  | x128Load img => exact ⟨[], if_pos (by simpa [deser128, Instr.wf] using hwf), rfl⟩
  | primMix | primJoin32 | x256Next | x256Min | x256Max => exact ⟨_, rfl, bytes64_length _⟩
  | primHigh32 | primLow32 | x128Next | x128Min | x128Max => exact ⟨_, rfl, bytes32_length _⟩
  | x256Save => exact ⟨_, rfl, ser256_length _⟩
  | x128Save => exact ⟨_, rfl, ser128_length _⟩
  | _ => exact ⟨_, rfl, rfl⟩

/-- Settles O30: each of the four cases fixes what the decoder answers, and the response of a command that runs is
`E_ROTRANGE` or `OK` as its amount is out of range or not (`after_of_rotatesOutOfRange`, `answer_ok`). -/
theorem decodeProcedureOrder : Obligations.DecodeProcedureOrder := by
  intro s bytes rest hreq
  refine ⟨?_, ?_, ?_, ?_⟩
  · rintro rfl
    exact step_of_decodeFrame_reject hreq rfl
  · rintro code area rfl hrow
    exact step_of_decodeFrame_reject hreq (decodeFrame_of_reserved area (rowOf_eq_none_iff.mp hrow))
  · rintro code area row rfl hrow hlen
    obtain ⟨o, rfl, rfl⟩ := rowOf_eq_some_iff.mp hrow
    exact step_of_decodeFrame_reject hreq (decodeFrame_of_length_ne hlen)
  · rintro code area row rfl hrow hlen
    obtain ⟨o, rfl, rfl⟩ := rowOf_eq_some_iff.mp hrow
    have hdec := decodeFrame_of_length_eq hlen
    have hstep := step_of_decodeFrame_instr hreq hdec
    refine ⟨hstep.trans (exec_eq _ _).symm, fun hout => ?_, fun hin => ?_⟩
    · rw [hstep, after_of_rotatesOutOfRange ((rotatesOutOfRange_mapOperands o area).mpr hout)]
      rfl
    · obtain ⟨result, hresult, -⟩ := answer_ok (wf_of_decodeFrame hdec)
        (mt (rotatesOutOfRange_mapOperands o area).mp hin) s.s256 s.s128
      exact ⟨_, result, hstep, (after_responses _ _).trans (by simp [hresult])⟩

/-- Settles O39: a command answers once (`after_responses`), with `OK` and the map's result length or with
`E_ROTRANGE`; a frame that is no command answers once with the status of its rejection, which is never `OK`. -/
theorem oneResponsePerFrame : Obligations.OneResponsePerFrame := by
  intro s bytes rest hreq
  rcases step_frame hreq with ⟨i, hdec, hstep⟩ | ⟨r, -, hstep⟩
  · refine ⟨_, answer i s.s256 s.s128, hstep, after_requests _ _, after_responses _ _, ?_⟩
    by_cases hout : rotatesOutOfRange i
    · exact .inr ⟨0x03#8, by decide, answer_of_rotatesOutOfRange hout _ _⟩
    · obtain ⟨result, hresult, hlen⟩ := answer_ok (wf_of_decodeFrame hdec) hout s.s256 s.s128
      exact .inl ⟨i, result, hdec, hresult, hlen⟩
  · refine ⟨_, [statusCode (rejectStatus r)], hstep, rfl, rfl, .inr ⟨_, ?_, rfl⟩⟩
    cases r <;> decide

end Sys2Proof.Machine

/-! ## The mixer (40_splitmix64_mixer.md), and the frame rule that every command's frame follows -/

namespace Sys2Proof.Machine

open Spec

/-- The frame rule of a command (R65, R71): on an operand area of the required length the step executes the command
read from it, and every other length is rejected. -/
theorem frameRule_of_after (o : Op) {out : List Byte → State → State}
    (h : ∀ area s, area.length = operandLength o → after (mapOperands o area) s = out area s) :
    FrameRule (opCode o) (operandLength o) out := by
  intro s rest area hreq
  split
  next hlen =>
    rw [step_of_decodeFrame_instr hreq (decodeFrame_of_length_eq hlen), h _ _ hlen]
    rfl
  next hlen => exact step_of_decodeFrame_reject hreq (decodeFrame_of_length_ne hlen)

/-- The bytes of R64 are those the model writes for a 64-bit word. -/
theorem byteList_eq_bytes64 (v : Word64) : byteList 8 v = bytes64 v :=
  (rspWrite_eq_map 8 v).symm

/-- The arithmetic of R90 on numbers is the model's mixer. -/
theorem mixWord_eq_mix (x : Word64) : mixWord x = mix x := by
  have hvalue : mixValue x.toNat = (mix x).toNat := (mix_toNat x).symm
  rw [mixWord, hvalue, BitVec.ofNat_toNat, BitVec.setWidth_eq]

/-- PRIM.MIX changes nothing but the record of responses (R91). -/
theorem after_primMix (x : Word64) (s : State) :
    after (.primMix x) s = answered s (0x00#8 :: byteList 8 (mixWord x)) := by
  rw [byteList_eq_bytes64, mixWord_eq_mix]
  rfl

/-- Settles O1: the command and its frame are both `after_primMix`, one by `exec_eq` and the other by
`frameRule_of_after`; the three corner values are computed. -/
theorem mixCommand : Obligations.MixCommand := by
  refine ⟨fun x s => ?_, frameRule_of_after .primMix fun _ s _ => after_primMix _ s, by decide, by decide, by decide⟩
  rw [exec_eq, after_primMix]

end Sys2Proof.Machine

/-! ## Rotations and half-words (41_rotate_and_halfword.md) -/

namespace Sys2Proof.Machine

open Spec

/-! ### The rotations -/

/-- The bytes of R64 are those the model writes for a 32-bit word. -/
theorem byteList_eq_bytes32 (v : Word32) : byteList 4 v = bytes32 v :=
  (rspWrite_eq_map 4 v).symm

/-- PRIM.ROTL64 changes nothing but the record of responses, inside the domain and outside it (R106). -/
theorem after_primRotl64 (x : Word64) (k : Byte) (s : State) :
    after (.primRotl64 x k) s =
      if k.toNat = 0 ∨ 64 ≤ k.toNat then answered s [0x03#8]
      else answered s (0x00#8 :: byteList 8 ((x <<< k.toNat) ||| (x >>> (64 - k.toNat)))) := by
  split
  next hout => exact after_of_rotatesOutOfRange (i := .primRotl64 x k) hout s
  next hin =>
    have hdomain : 0 < k.toNat ∧ k.toNat < 64 := by omega
    rw [after, answer_rotl64, dif_pos hdomain, byteList_eq_bytes64]
    rfl

/-- PRIM.ROTL32 changes nothing but the record of responses, inside the domain and outside it (R107). -/
theorem after_primRotl32 (x : Word32) (k : Byte) (s : State) :
    after (.primRotl32 x k) s =
      if k.toNat = 0 ∨ 32 ≤ k.toNat then answered s [0x03#8]
      else answered s (0x00#8 :: byteList 4 ((x <<< k.toNat) ||| (x >>> (32 - k.toNat)))) := by
  split
  next hout => exact after_of_rotatesOutOfRange (i := .primRotl32 x k) hout s
  next hin =>
    have hdomain : 0 < k.toNat ∧ k.toNat < 32 := by omega
    rw [after, answer_rotl32, dif_pos hdomain, byteList_eq_bytes32]
    rfl

/-- Settles O2: the command inside the domain, the command outside it and the frame are the two branches of
`after_primRotl64` and the whole of it; the bits are `rotl_getLsbD`. -/
theorem rotl64Command : Obligations.Rotl64Command := by
  refine ⟨fun x k s hpos hlt => ?_, fun x k s hout => ?_, fun x k i hpos hlt => rotl_getLsbD x k i ⟨hpos, hlt⟩,
    frameRule_of_after .primRotl64 fun _ s _ => after_primRotl64 _ _ s⟩
  · rw [exec_eq, after_primRotl64, if_neg (by omega)]
  · rw [exec_eq, after_primRotl64, if_pos hout]

/-- Settles O3, as O2 with the branches of `after_primRotl32`: an amount of 32 falls under the error. -/
theorem rotl32Command : Obligations.Rotl32Command := by
  refine ⟨fun x k s hpos hlt => ?_, fun x k s hout => ?_, fun x k i hpos hlt => rotl_getLsbD x k i ⟨hpos, hlt⟩,
    frameRule_of_after .primRotl32 fun _ s _ => after_primRotl32 _ _ s⟩
  · rw [exec_eq, after_primRotl32, if_neg (by omega)]
  · rw [exec_eq, after_primRotl32, if_pos hout]

/-! ### The half-words -/

/-- R102 as the quotient by `2^32`. -/
theorem high32_eq_ofNat (x : Word64) : high32 x = BitVec.ofNat 32 (x.toNat / 2 ^ 32) := by
  rw [← high32_toNat, BitVec.ofNat_toNat, BitVec.setWidth_eq]

/-- R103 as the remainder by `2^32`. -/
theorem low32_eq_ofNat (x : Word64) : low32 x = BitVec.ofNat 32 (x.toNat % 2 ^ 32) := by
  rw [← low32_toNat, BitVec.ofNat_toNat, BitVec.setWidth_eq]

/-- The concatenation of R104 on numbers is the model's. -/
theorem joinWords_eq_join32 (h l : Word32) : joinWords h l = join32 h l := by
  rw [joinWords, ← join32_toNat, BitVec.ofNat_toNat, BitVec.setWidth_eq]

/-- PRIM.HIGH32 changes nothing but the record of responses (R108). -/
theorem after_primHigh32 (x : Word64) (s : State) :
    after (.primHigh32 x) s = answered s (0x00#8 :: byteList 4 (BitVec.ofNat 32 (x.toNat / 2 ^ 32))) := by
  rw [byteList_eq_bytes32, ← high32_eq_ofNat]
  rfl

/-- PRIM.LOW32 changes nothing but the record of responses (R109). -/
theorem after_primLow32 (x : Word64) (s : State) :
    after (.primLow32 x) s = answered s (0x00#8 :: byteList 4 (BitVec.ofNat 32 (x.toNat % 2 ^ 32))) := by
  rw [byteList_eq_bytes32, ← low32_eq_ofNat]
  rfl

/-- PRIM.JOIN32 changes nothing but the record of responses (R110). -/
theorem after_primJoin32 (hi lo : Word32) (s : State) :
    after (.primJoin32 hi lo) s = answered s (0x00#8 :: byteList 8 (joinWords hi lo)) := by
  rw [byteList_eq_bytes64, joinWords_eq_join32]
  rfl

/-- Settles O4: each command and its frame are one equation, `after_primHigh32` or `after_primLow32`. -/
theorem halfwordCommands : Obligations.HalfwordCommands := by
  refine ⟨fun x s => ?_, fun x s => ?_, frameRule_of_after .primHigh32 fun _ s _ => after_primHigh32 _ s,
    frameRule_of_after .primLow32 fun _ s _ => after_primLow32 _ s⟩
  · rw [exec_eq, after_primHigh32]
  · rw [exec_eq, after_primLow32]

/-- Settles O5: the command and its frame are both `after_primJoin32`, with `hi` at offset 0 of the operand area and
`lo` at offset 4. -/
theorem joinCommand : Obligations.JoinCommand := by
  refine ⟨fun hi lo s => ?_, frameRule_of_after .primJoin32 fun _ s _ => after_primJoin32 _ _ s⟩
  rw [exec_eq, after_primJoin32]

end Sys2Proof.Machine

/-! ## The 64-bit engine (42_xoshiro256pp.md), and the commands of the 32-bit engine stated together with it -/

namespace Sys2Proof.Machine

open Spec

/-- A command answers the state that is known to follow it. -/
theorem exec_of_after {i : Instr} {s t : State} (h : after i s = t) : exec i s = .next t := by
  rw [exec_eq, h]

/-! ### Construction -/

/-- X256.INIT does not touch `s128` (R121). -/
theorem after_x256Init (s : State) :
    after .x256Init s = answered { s with s256 := Config.defaultState256 } [0x00#8] := rfl

/-- X128.INIT does not touch `s256` (R161). -/
theorem after_x128Init (s : State) :
    after .x128Init s = answered { s with s128 := Config.defaultState128 } [0x00#8] := rfl

/-- Settles O6: each command and its frame are one equation, `after_x256Init` or `after_x128Init`, and the defaults are
not all-zero by the form they are built in. -/
theorem initCommands : Obligations.InitCommands :=
  ⟨fun s => exec_of_after (after_x256Init s), fun s => exec_of_after (after_x128Init s),
    Config.defaultState256_ne_zero, Config.defaultState128_ne_zero,
    frameRule_of_after .x256Init fun _ s _ => after_x256Init s,
    frameRule_of_after .x128Init fun _ s _ => after_x128Init s⟩

/-! ### Seeding -/

/-- R122: word `k` is the mixer of R90 applied `k + 2` times. -/
theorem seed256_eq_iterate (seed : Word64) :
    seed256 seed = ⟨mixWord^[2] seed, mixWord^[3] seed, mixWord^[4] seed, mixWord^[5] seed⟩ := by
  rw [show mixWord = mix from funext mixWord_eq_mix]
  rfl

theorem mix_zero_ne_zero : mix 0#64 ≠ 0#64 := by decide

/-- A word of the vector is the mixer of the word before it, and the mixer does not take zero to zero, so no two
consecutive words are zero. -/
theorem seed256_ne_zero (seed : Word64) : seed256 seed ≠ Vec4.zero 64 := by
  intro h
  have h0 : mix (mix seed) = 0#64 := congrArg Vec4.w0 h
  have h1 : mix (mix (mix seed)) = 0#64 := congrArg Vec4.w1 h
  rw [h0] at h1
  exact mix_zero_ne_zero h1

/-- X256.SEED64 does not touch `s128` (R123). -/
theorem after_x256Seed64 (seed : Word64) (s : State) :
    after (.x256Seed64 seed) s = answered
      { s with s256 := ⟨mixWord^[2] seed, mixWord^[3] seed, mixWord^[4] seed, mixWord^[5] seed⟩ } [0x00#8] := by
  rw [← seed256_eq_iterate]
  rfl

/-- Settles O7: the command and its frame are both `after_x256Seed64`, and the vector is the model's, which is never
all-zero (`seed256_ne_zero`). -/
theorem seed64Command256 : Obligations.Seed64Command256 :=
  ⟨fun seed s => exec_of_after (after_x256Seed64 seed s),
    fun seed => seed256_eq_iterate seed ▸ seed256_ne_zero seed,
    frameRule_of_after .x256Seed64 fun _ s _ => after_x256Seed64 _ s⟩

/-- X256.SEEDRAW does not touch `s128`, and no vector is refused (R124). -/
theorem after_x256Seedraw (w0 w1 w2 w3 : Word64) (s : State) :
    after (.x256Seedraw w0 w1 w2 w3) s = answered { s with s256 := ⟨w0, w1, w2, w3⟩ } [0x00#8] := rfl

/-- Settles O8: the command and its frame are both `after_x256Seedraw`. -/
theorem seedrawCommand256 : Obligations.SeedrawCommand256 :=
  ⟨fun w0 w1 w2 w3 s => exec_of_after (after_x256Seedraw w0 w1 w2 w3 s),
    frameRule_of_after .x256Seedraw fun _ s _ => after_x256Seedraw _ _ _ _ s⟩

/-- The value of a byte string is that of its first `m` bytes and, above them, that of the next `n`. -/
theorem leValue_take_add (bs : List Byte) (m n : Nat) :
    leValue (bs.take (m + n)) = leValue (bs.take m) + 256 ^ m * leValue ((bs.drop m).take n) := by
  induction m generalizing bs with
  | zero => simp [leValue]
  | succ m ih =>
    cases bs with
    | nil => simp [leValue]
    | cons b bs =>
      rw [Nat.succ_add, List.take_succ_cons, List.take_succ_cons, List.drop_succ_cons, leValue, leValue, ih]
      ring

theorem leValue_take_lt (bs : List Byte) (n : Nat) : leValue (bs.take n) < 256 ^ n :=
  (leValue_lt _).trans_le (Nat.pow_le_pow_right (by decide) (List.length_take_le n bs))

/-- An operand of whole bytes is the value of its bytes, nothing cut off. -/
theorem opRead_toNat {w : Nat} (hw : 256 ^ (w / 8) = 2 ^ w) (area : List Byte) (off : Nat) :
    (opRead w area off).toNat = leValue ((area.drop off).take (w / 8)) := by
  rw [opRead, BitVec.toNat_ofNat, Nat.mod_eq_of_lt (hw ▸ leValue_take_lt _ _)]

/-- Two neighbouring 32-bit operands, joined with the lower offset as the low half, are the 64-bit operand at that
offset (20_memory.md R42). -/
theorem joinWords_readValue (area : List Byte) (off : Nat) :
    joinWords (readValue 32 area (off + 4)) (readValue 32 area off) = readValue 64 area off := by
  have hsplit : leValue ((area.drop off).take 8) =
      leValue ((area.drop off).take 4) + 256 ^ 4 * leValue ((area.drop (off + 4)).take 4) := by
    rw [← List.drop_drop]
    exact leValue_take_add _ 4 4
  rw [joinWords_eq_join32]
  apply BitVec.eq_of_toNat_eq
  simp only [readValue_eq_opRead, join32_toNat, opRead_toNat (w := 32) rfl, opRead_toNat (w := 64) rfl,
    Nat.reduceDiv, hsplit]
  omega

/-- X256.SEEDSEQ does not touch `s128` (R126). -/
theorem after_x256Seedseq (b0 b1 b2 b3 b4 b5 b6 b7 : Word32) (s : State) :
    after (.x256Seedseq b0 b1 b2 b3 b4 b5 b6 b7) s = answered
      { s with s256 := ⟨joinWords b1 b0, joinWords b3 b2, joinWords b5 b4, joinWords b7 b6⟩ } [0x00#8] := by
  simp only [joinWords_eq_join32]
  rfl

/-- On its operand area X256.SEEDSEQ gives the state of X256.SEEDRAW (R126). -/
theorem after_x256Seedseq_mapOperands (area : List Byte) (s : State) :
    after (mapOperands .x256Seedseq area) s = after (mapOperands .x256Seedraw area) s := by
  rw [mapOperands, mapOperands, after_x256Seedseq, after_x256Seedraw, joinWords_readValue area 0,
    joinWords_readValue area 8, joinWords_readValue area 16, joinWords_readValue area 24]

/-- Settles O9: the command and the first frame rule are `after_x256Seedseq`; the second is
`after_x256Seedseq_mapOperands`. -/
theorem seedseqCommand256 : Obligations.SeedseqCommand256 :=
  ⟨fun b0 b1 b2 b3 b4 b5 b6 b7 s => exec_of_after (after_x256Seedseq b0 b1 b2 b3 b4 b5 b6 b7 s),
    frameRule_of_after .x256Seedseq fun _ s _ => after_x256Seedseq _ _ _ _ _ _ _ _ s,
    frameRule_of_after .x256Seedseq fun area s _ => after_x256Seedseq_mapOperands area s⟩

/-! ### Generation and discard -/

/-- The pseudocode of R128 is the model's step. -/
theorem nextStep256_eq_next256 (v : Vec4 64) : nextStep256 v = next256 v := rfl

/-- X256.NEXT answers from the vector before the step and does not touch `s128` (R129). -/
theorem after_x256Next (s : State) :
    after .x256Next s =
      answered { s with s256 := (nextStep256 s.s256).2 } (0x00#8 :: byteList 8 (nextStep256 s.s256).1) := by
  rw [byteList_eq_bytes64, nextStep256_eq_next256]
  rfl

/-- Settles O14: the command and its frame are both `after_x256Next`; the all-zero vector is `next256_zero`. -/
theorem nextCommand256 : Obligations.NextCommand256 :=
  ⟨fun s => exec_of_after (after_x256Next s), (nextStep256_eq_next256 _).trans next256_zero,
    frameRule_of_after .x256Next fun _ s _ => after_x256Next s⟩

/-- The iterated pseudocode of R131 is the model's repetition. -/
theorem discardSpec256_eq_discard256 (v : Vec4 64) (n : Nat) : discardSpec256 v n = discard256 v n := by
  rw [discardSpec256, discard256, discardSteps_eq_iterate]
  simp only [nextStep256_eq_next256]

/-- X256.DISCARD answers no result and does not touch `s128` (R132). -/
theorem after_x256Discard (n : Word64) (s : State) :
    after (.x256Discard n) s = answered { s with s256 := discardSpec256 s.s256 n.toNat } [0x00#8] := by
  rw [discardSpec256_eq_discard256]
  rfl

/-- Settles O17: the command and its frame are both `after_x256Discard`, for every count. -/
theorem discardCommand256 : Obligations.DiscardCommand256 :=
  ⟨fun n s => exec_of_after (after_x256Discard n s),
    frameRule_of_after .x256Discard fun _ s _ => after_x256Discard _ s⟩

/-! ### Equality -/

/-- R133: four equal words are equal vectors. -/
theorem eq256_iff {a b : Vec4 64} : eq256 a b = true ↔ a = b := by
  simp [eq256, Vec4.ext_iff, and_assoc]

/-- R177: four equal words are equal vectors. -/
theorem eq128_iff {a b : Vec4 32} : eq128 a b = true ↔ a = b := by
  simp [eq128, Vec4.ext_iff, and_assoc]

/-- The result byte of `EQ` by the proposition that its flag decides (R64). -/
theorem flagByte_eq_ite {equal : Bool} {p : Prop} [Decidable p] (h : equal = true ↔ p) :
    flagByte equal = if p then 0x01#8 else 0x00#8 :=
  if_congr h rfl rfl

/-- X256.EQ changes nothing but the record of responses (R134). -/
theorem after_x256Eq (w0 w1 w2 w3 : Word64) (s : State) :
    after (.x256Eq w0 w1 w2 w3) s =
      answered s [0x00#8, if s.s256 = ⟨w0, w1, w2, w3⟩ then 0x01#8 else 0x00#8] := by
  rw [← flagByte_eq_ite eq256_iff]
  rfl

/-- X128.EQ changes nothing but the record of responses (R178). -/
theorem after_x128Eq (w0 w1 w2 w3 : Word32) (s : State) :
    after (.x128Eq w0 w1 w2 w3) s =
      answered s [0x00#8, if s.s128 = ⟨w0, w1, w2, w3⟩ then 0x01#8 else 0x00#8] := by
  rw [← flagByte_eq_ite eq128_iff]
  rfl

/-- Settles O19: each command and its frame are one equation, `after_x256Eq` or `after_x128Eq`. -/
theorem eqCommands : Obligations.EqCommands :=
  ⟨fun w0 w1 w2 w3 s => exec_of_after (after_x256Eq w0 w1 w2 w3 s),
    fun w0 w1 w2 w3 s => exec_of_after (after_x128Eq w0 w1 w2 w3 s),
    frameRule_of_after .x256Eq fun _ s _ => after_x256Eq _ _ _ _ s,
    frameRule_of_after .x128Eq fun _ s _ => after_x128Eq _ _ _ _ s⟩

/-! ### Range -/

/-- X256.MIN changes nothing but the record of responses (R135). -/
theorem after_x256Min (s : State) : after .x256Min s = answered s (0x00#8 :: List.replicate 8 0x00#8) := rfl

/-- X256.MAX changes nothing but the record of responses (R136). -/
theorem after_x256Max (s : State) : after .x256Max s = answered s (0x00#8 :: List.replicate 8 0xFF#8) := rfl

/-- X128.MIN changes nothing but the record of responses (R179). -/
theorem after_x128Min (s : State) : after .x128Min s = answered s (0x00#8 :: List.replicate 4 0x00#8) := rfl

/-- X128.MAX changes nothing but the record of responses (R180). -/
theorem after_x128Max (s : State) : after .x128Max s = answered s (0x00#8 :: List.replicate 4 0xFF#8) := rfl

/-- Settles O20: each command and its frame are one equation, which says that the response is the same constant in
every state. -/
theorem rangeCommands : Obligations.RangeCommands :=
  ⟨fun s => exec_of_after (after_x256Min s), fun s => exec_of_after (after_x256Max s),
    fun s => exec_of_after (after_x128Min s), fun s => exec_of_after (after_x128Max s),
    frameRule_of_after .x256Min fun _ s _ => after_x256Min s,
    frameRule_of_after .x256Max fun _ s _ => after_x256Max s,
    frameRule_of_after .x128Min fun _ s _ => after_x128Min s,
    frameRule_of_after .x128Max fun _ s _ => after_x128Max s⟩

end Sys2Proof.Machine

/-! ## The 32-bit engine (43_xoshiro128pp.md) -/

namespace Sys2Proof.Machine

open Spec

/-! ### Integer seeds -/

theorem mixValue_toNat (x : Word64) : mixValue x.toNat = (mix x).toNat :=
  (mix_toNat x).symm

/-- A mixer result cut to its bits [31:0], decision D3 of R162, from the half-word that feeds it. -/
theorem seedHalf_toNat (h : Word32) : seedHalf h.toNat = narrow32 (mix (h.setWidth 64)) := by
  have hwiden : (h.setWidth 64).toNat = h.toNat := BitVec.toNat_setWidth_of_le (by decide)
  apply BitVec.eq_of_toNat_eq
  rw [seedHalf, ← hwiden, mixValue_toNat, narrow32, BitVec.toNat_ofNat, BitVec.toNat_setWidth, Nat.mod_mod]

/-- The arithmetic of R162 on numbers is the model's `seed128`. -/
theorem seedVector128_eq_seed128 (seed : Word64) : seedVector128 seed = seed128 seed := by
  simp only [seedVector128, mixValue_toNat, ← high32_toNat, ← low32_toNat, seedHalf_toNat]
  rfl

/-- X128.SEED64 does not touch `s256` (R163). -/
theorem after_x128Seed64 (seed : Word64) (s : State) :
    after (.x128Seed64 seed) s = answered { s with s128 := seedVector128 seed } [0x00#8] := by
  rw [seedVector128_eq_seed128]
  rfl

/-- Settles O10: the command and its frame are both `after_x128Seed64`. -/
theorem seed64Command128 : Obligations.Seed64Command128 :=
  ⟨fun seed s => exec_of_after (after_x128Seed64 seed s),
    frameRule_of_after .x128Seed64 fun _ s _ => after_x128Seed64 _ s⟩

/-- X128.SEED32 is X128.SEED64 on the seed in both halves (R164, R165). -/
theorem after_x128Seed32 (seed : Word32) (s : State) :
    after (.x128Seed32 seed) s = after (.x128Seed64 (joinWords seed seed)) s := by
  rw [joinWords_eq_join32]
  rfl

/-- X128.SEED32 does not touch `s256` (R165). -/
theorem after_x128Seed32_eq_answered (seed : Word32) (s : State) :
    after (.x128Seed32 seed) s = answered { s with s128 := seedVector128 (joinWords seed seed) } [0x00#8] :=
  (after_x128Seed32 seed s).trans (after_x128Seed64 _ s)

/-- Settles O11: the command and its frame are both `after_x128Seed32_eq_answered`, and `after_x128Seed32` is the
outcome of X128.SEED64, since `joinWords` is by definition the number `s * 2^32 + s`. -/
theorem seed32Command128 : Obligations.Seed32Command128 :=
  ⟨fun seed s => exec_of_after (after_x128Seed32_eq_answered seed s),
    fun seed s => (exec_of_after (after_x128Seed32 seed s)).trans (exec_eq _ s).symm,
    frameRule_of_after .x128Seed32 fun _ s _ => after_x128Seed32_eq_answered _ s⟩

/-! ### Raw seeds -/

/-- X128.SEEDRAW does not touch `s256`, and no vector is refused (R166). -/
theorem after_x128Seedraw (w0 w1 w2 w3 : Word32) (s : State) :
    after (.x128Seedraw w0 w1 w2 w3) s = answered { s with s128 := ⟨w0, w1, w2, w3⟩ } [0x00#8] := rfl

/-- X128.SEEDSEQ does not touch `s256` (R170). -/
theorem after_x128Seedseq (b0 b1 b2 b3 : Word32) (s : State) :
    after (.x128Seedseq b0 b1 b2 b3) s = answered { s with s128 := ⟨b0, b1, b2, b3⟩ } [0x00#8] := rfl

/-- Settles O12: each command and its frame are one equation, `after_x128Seedraw` or `after_x128Seedseq`. -/
theorem rawSeedCommands128 : Obligations.RawSeedCommands128 :=
  ⟨fun w0 w1 w2 w3 s => exec_of_after (after_x128Seedraw w0 w1 w2 w3 s),
    fun b0 b1 b2 b3 s => exec_of_after (after_x128Seedseq b0 b1 b2 b3 s),
    frameRule_of_after .x128Seedraw fun _ s _ => after_x128Seedraw _ _ _ _ s,
    frameRule_of_after .x128Seedseq fun _ s _ => after_x128Seedseq _ _ _ _ s⟩

@[simp] theorem high32_join32 (h l : Word32) : high32 (join32 h l) = h := by
  have hl := l.isLt
  apply BitVec.eq_of_toNat_eq
  rw [high32_toNat, join32_toNat]
  omega

@[simp] theorem low32_join32 (h l : Word32) : low32 (join32 h l) = l := by
  have hl := l.isLt
  apply BitVec.eq_of_toNat_eq
  rw [low32_toNat, join32_toNat]
  omega

/-- Two joined pairs unpack to their four words, the low half of each pair first (R167). -/
theorem unpack128_joinWords (w0 w1 w2 w3 : Word32) :
    unpack128 (joinWords w1 w0) (joinWords w3 w2) = ⟨w0, w1, w2, w3⟩ := by
  simp [unpack128, joinWords_eq_join32]

/-- X128.SEEDRAW64 does not touch `s256` (R168). -/
theorem after_x128Seedraw64 (q0 q1 : Word64) (s : State) :
    after (.x128Seedraw64 q0 q1) s = answered { s with s128 := unpack128 q0 q1 } [0x00#8] := rfl

/-- R167 on numbers: remainder and quotient by `2^32`. -/
theorem unpack128_eq_ofNat (q0 q1 : Word64) :
    unpack128 q0 q1 = ⟨BitVec.ofNat 32 (q0.toNat % 2 ^ 32), BitVec.ofNat 32 (q0.toNat / 2 ^ 32),
      BitVec.ofNat 32 (q1.toNat % 2 ^ 32), BitVec.ofNat 32 (q1.toNat / 2 ^ 32)⟩ := by
  simp only [unpack128, low32_eq_ofNat, high32_eq_ofNat]

/-- On its operand area X128.SEEDRAW64 gives the state of X128.SEEDRAW (R168): each 64-bit operand is the join of the
two 32-bit operands at its place. -/
theorem after_x128Seedraw64_mapOperands (area : List Byte) (s : State) :
    after (mapOperands .x128Seedraw64 area) s = after (mapOperands .x128Seedraw area) s := by
  rw [mapOperands, mapOperands, after_x128Seedraw64, after_x128Seedraw, ← joinWords_readValue area 0,
    ← joinWords_readValue area 8, unpack128_joinWords]

/-- Settles O13: the command is `after_x128Seedraw64` with the halves as numbers, and the frame is
`after_x128Seedraw64_mapOperands`. -/
theorem seedraw64Command128 : Obligations.Seedraw64Command128 :=
  ⟨fun q0 q1 s => unpack128_eq_ofNat q0 q1 ▸ exec_of_after (after_x128Seedraw64 q0 q1 s),
    frameRule_of_after .x128Seedraw64 fun area s _ => after_x128Seedraw64_mapOperands area s⟩

/-! ### Generation and discard -/

/-- The pseudocode of R172 is the model's step. -/
theorem nextStep128_eq_next128 (v : Vec4 32) : nextStep128 v = next128 v := rfl

/-- X128.NEXT answers from the vector before the step and does not touch `s256` (R173). -/
theorem after_x128Next (s : State) :
    after .x128Next s =
      answered { s with s128 := (nextStep128 s.s128).2 } (0x00#8 :: byteList 4 (nextStep128 s.s128).1) := by
  rw [byteList_eq_bytes32, nextStep128_eq_next128]
  rfl

/-- Settles O15: the command and its frame are both `after_x128Next`; the all-zero vector is `next128_zero`. -/
theorem nextCommand128 : Obligations.NextCommand128 :=
  ⟨fun s => exec_of_after (after_x128Next s), (nextStep128_eq_next128 _).trans next128_zero,
    frameRule_of_after .x128Next fun _ s _ => after_x128Next s⟩

/-- The iterated pseudocode of R175 is the model's repetition. -/
theorem discardSpec128_eq_discard128 (v : Vec4 32) (n : Nat) : discardSpec128 v n = discard128 v n := by
  rw [discardSpec128, discard128, discardSteps_eq_iterate]
  simp only [nextStep128_eq_next128]

/-- X128.DISCARD answers no result and does not touch `s256` (R176). -/
theorem after_x128Discard (n : Word64) (s : State) :
    after (.x128Discard n) s = answered { s with s128 := discardSpec128 s.s128 n.toNat } [0x00#8] := by
  rw [discardSpec128_eq_discard128]
  rfl

/-- Settles O18: the command and its frame are both `after_x128Discard`, for every 64-bit count. -/
theorem discardCommand128 : Obligations.DiscardCommand128 :=
  ⟨fun n s => exec_of_after (after_x128Discard n s),
    frameRule_of_after .x128Discard fun _ s _ => after_x128Discard _ s⟩

end Sys2Proof.Machine

/-! ## The serializer (44_serializer.md) -/

namespace Sys2Proof.Machine

open Spec

/-! ### The images -/

/-- The image of R200 and R204, word by word, is the model's. -/
theorem image_eq_serialize {w : Nat} (n : Nat) (v : Vec4 w) : image n v = serialize n v := by
  have hbytes (u : BitVec w) : byteList n u = rspWrite n u := (rspWrite_eq_map n u).symm
  simp [image, serialize, hbytes, List.finRange_succ, Vec4.word, separator]

/-- The words of R202 and R206 are those the model reads: no separator byte is among them. -/
theorem imageWords_eq_deserialize (w n : Nat) (img : List Byte) : imageWords w n img = deserialize w n img := by
  simp only [imageWords, deserialize, readValue_eq_opRead, Nat.mul_comm (n + 1), Nat.zero_mul, Nat.one_mul]

theorem image_eq_ser256 (v : Vec4 64) : image 8 v = ser256 v := image_eq_serialize 8 v

theorem image_eq_ser128 (v : Vec4 32) : image 4 v = ser128 v := image_eq_serialize 4 v

theorem deser256_of_length {img : List Byte} (h : img.length = 36) : deser256 img = some (imageWords 64 8 img) := by
  rw [deser256, if_pos h, imageWords_eq_deserialize]

theorem deser128_of_length {img : List Byte} (h : img.length = 20) : deser128 img = some (imageWords 32 4 img) := by
  rw [deser128, if_pos h, imageWords_eq_deserialize]

/-! ### Saving -/

/-- X256.SAVE changes nothing but the record of responses (R201, R211). -/
theorem after_x256Save (s : State) : after .x256Save s = answered s (0x00#8 :: image 8 s.s256) := by
  rw [image_eq_ser256]
  rfl

/-- X128.SAVE changes nothing but the record of responses (R205, R211). -/
theorem after_x128Save (s : State) : after .x128Save s = answered s (0x00#8 :: image 4 s.s128) := by
  rw [image_eq_ser128]
  rfl

/-- Settles O21: each command and its frame are one equation, `after_x256Save` or `after_x128Save`, and the length of
an image is that of the model's. -/
theorem saveCommands : Obligations.SaveCommands :=
  ⟨fun s => exec_of_after (after_x256Save s), fun s => exec_of_after (after_x128Save s),
    fun v => image_eq_ser256 v ▸ ser256_length v, fun v => image_eq_ser128 v ▸ ser128_length v,
    frameRule_of_after .x256Save fun _ s _ => after_x256Save s,
    frameRule_of_after .x128Save fun _ s _ => after_x128Save s⟩

/-! ### Loading -/

theorem new256_x256Load (img : List Byte) (v : Vec4 64) : new256 (.x256Load img) v = (deser256 img).getD v := rfl

theorem new128_x128Load (img : List Byte) (v : Vec4 32) : new128 (.x128Load img) v = (deser128 img).getD v := rfl

theorem answer_x256Load (img : List Byte) (v : Vec4 64) (u : Vec4 32) :
    answer (.x256Load img) v u = if (deser256 img).isSome then [0x00#8] else [0x02#8] := rfl

theorem answer_x128Load (img : List Byte) (v : Vec4 64) (u : Vec4 32) :
    answer (.x128Load img) v u = if (deser128 img).isSome then [0x00#8] else [0x02#8] := rfl

/-- X256.LOAD of 36 bytes does not touch `s128`, and no image is refused (R203, R208). -/
theorem after_x256Load {img : List Byte} (h : img.length = 36) (s : State) :
    after (.x256Load img) s = answered { s with s256 := imageWords 64 8 img } [0x00#8] := by
  rw [after, answer_x256Load, new256_x256Load, deser256_of_length h]
  rfl

/-- X128.LOAD of 20 bytes does not touch `s256`, and no image is refused (R207, R208). -/
theorem after_x128Load {img : List Byte} (h : img.length = 20) (s : State) :
    after (.x128Load img) s = answered { s with s128 := imageWords 32 4 img } [0x00#8] := by
  rw [after, answer_x128Load, new128_x128Load, deser128_of_length h]
  rfl

/-- Settles O22: each command and its frame are one equation, `after_x256Load` or `after_x128Load`; a frame of another
length never reaches the command (`frameRule_of_after`). -/
theorem loadCommands : Obligations.LoadCommands :=
  ⟨fun _ s h => exec_of_after (after_x256Load h s), fun _ s h => exec_of_after (after_x128Load h s),
    frameRule_of_after .x256Load fun _ s h => after_x256Load h s,
    frameRule_of_after .x128Load fun _ s h => after_x128Load h s⟩

end Sys2Proof.Machine

/-! ## Exceptions (60_exceptions.md): wrong lengths, and what an error leaves behind -/

namespace Sys2Proof.Machine

open Spec

/-- Settles O32: an empty frame and an operand area of another length than the opcode's row gives are both rejected by
the decoder, the second because every row of the map is `mapRow o` for one command `o`, and both rejections carry
`E_LENGTH`. -/
theorem wrongLengthAnswersLength : Obligations.WrongLengthAnswersLength := by
  refine ⟨fun s rest hreq => step_of_decodeFrame_reject hreq rfl, ?_⟩
  intro s rest area row hrow hlen hreq
  obtain ⟨o, rfl⟩ := mem_opcodeMap.mp hrow
  rw [ofNat_mapRow_fst] at hreq
  exact step_of_decodeFrame_reject hreq (decodeFrame_of_length_ne hlen)

/-- A command of the block is answered by an error only if it rotates by an amount outside its domain (R225). -/
theorem rotatesOutOfRange_of_answer_not_ok {i : Instr} (hwf : i.wf = true) {v : Vec4 64} {u : Vec4 32}
    (h : (answer i v u).head? ≠ some 0x00#8) : rotatesOutOfRange i := by
  by_contra hin
  obtain ⟨result, hresult, -⟩ := answer_ok hwf hin v u
  exact h (by rw [hresult, List.head?_cons])

/-- Settles O40: a frame that is no command changes nothing but the record of responses
(`step_of_decodeFrame_reject`), and a command answered by an error is an out-of-range rotation, which does not
either (`after_of_rotatesOutOfRange`). -/
theorem errorResponseChangesNothing : Obligations.ErrorResponseChangesNothing := by
  intro s bytes rest hreq
  cases hdec : decodeFrame bytes with
  | reject r => exact ⟨_, _, step_of_decodeFrame_reject hreq hdec, rfl, fun _ => ⟨rfl, rfl⟩⟩
  | instr i =>
    refine ⟨_, answer i s.s256 s.s128, step_of_decodeFrame_instr hreq hdec, after_responses _ _, fun herror => ?_⟩
    have hout : rotatesOutOfRange i := rotatesOutOfRange_of_answer_not_ok (wf_of_decodeFrame hdec) herror
    rw [answer_of_rotatesOutOfRange hout]
    exact ⟨after_of_rotatesOutOfRange hout _, rfl⟩

end Sys2Proof.Machine

/-! ## The round trips of the encoding (30_encoding.md): frames, and lines of the assembler -/

namespace Sys2Proof.Machine

/-! ### From a command to its frame and back -/

/-- An operand that begins where the bytes before it end is read from the bytes behind them. -/
theorem opRead_append_of_le (w : Nat) {pre : List Byte} (post : List Byte) {off : Nat} (h : pre.length ≤ off) :
    opRead w (pre ++ post) off = opRead w post (off - pre.length) := by
  rw [opRead, opRead, List.drop_append, List.drop_eq_nil_of_le h, List.nil_append]

theorem opRead_bytes64_append (v : Word64) (post : List Byte) : opRead 64 (bytes64 v ++ post) 0 = v :=
  opRead64_at [] post v 0 rfl

theorem opRead_bytes32_append (v : Word32) (post : List Byte) : opRead 32 (bytes32 v ++ post) 0 = v :=
  opRead32_at [] post v 0 rfl

theorem opRead_bytes64 (v : Word64) : opRead 64 (bytes64 v) 0 = v := by
  simpa using opRead_bytes64_append v []

theorem opRead_bytes32 (v : Word32) : opRead 32 (bytes32 v) 0 = v := by
  simpa using opRead_bytes32_append v []

theorem opRead_singleton (b : Byte) : opRead 8 [b] 0 = b :=
  opRead8_at [] [] b 0 rfl

/-- The operands of R66, read back from the area in which they are written one after another (R63). -/
theorem readOperands_operandBytes (i : Instr) : readOperands (instrOp i) (operandBytes i) = i := by
  cases i <;>
    simp [instrOp, operandBytes, readOperands, opRead_append_of_le, opRead_bytes64_append, opRead_bytes32_append,
      opRead_bytes64, opRead_bytes32, opRead_singleton]

theorem operandBytes_length {i : Instr} (h : i.wf = true) : (operandBytes i).length = operandLength (instrOp i) := by
  cases i with
  | x256Load img | x128Load img => exact eq_of_beq h
  | _ => simp [operandBytes, instrOp, operandLength]

/-- Settles O35: the operand area of a well-formed command has the length of its row, and the row's operands read
from it are the command's. -/
theorem decodeOfEncode : Obligations.DecodeOfEncode := by
  intro i hwf
  rw [encode, decodeFrame_opCode, if_pos (operandBytes_length hwf), readOperands_operandBytes]

/-! ### From a frame to its command and back -/

/-- Two neighbouring pieces of a byte string are one piece. -/
theorem take_drop_append_take_drop (bs : List Byte) {off off' m n : Nat} (h : off' = off + m) :
    (bs.drop off).take m ++ (bs.drop off').take n = (bs.drop off).take (m + n) := by
  rw [h, List.take_add, List.drop_drop]

theorem singleton_opRead {area : List Byte} {off : Nat} (h : off + 1 ≤ area.length) :
    [opRead 8 area off] = (area.drop off).take 1 := by
  simpa [rspWrite] using rspWrite_opRead (w := 8) rfl h

/-- Every byte of an operand area belongs to an operand: written again, the operands are the area. -/
theorem operandBytes_readOperands {o : Op} {area : List Byte} (h : area.length = operandLength o) :
    operandBytes (readOperands o area) = area := by
  have joined : operandBytes (readOperands o area) = (area.drop 0).take (operandLength o) := by
    cases o with
    | x256Load | x128Load => simp [readOperands, operandBytes, ← h]
    | _ =>
      simp only [operandLength] at h
      simp [readOperands, operandBytes, operandLength, bytes64_opRead, bytes32_opRead, singleton_opRead,
        take_drop_append_take_drop, h, -List.append_assoc, -List.drop_zero]
  rw [joined, List.drop_zero, ← h, List.take_length]

/-- Settles O36: a frame that decodes is an opcode and an operand area of the length of its row
(`decodeFrame_instr_cases`), and that area is what its operands are written as. -/
theorem encodeOfDecode : Obligations.EncodeOfDecode := by
  intro bytes i hdec
  refine ⟨wf_of_decodeFrame hdec, ?_⟩
  obtain ⟨o, area, rfl, hlen, rfl⟩ := decodeFrame_instr_cases hdec
  rw [encode, instrOp_readOperands, operandBytes_readOperands hlen]

/-! ### From a command to its line and back -/

/-- What the reader makes of a printed operand: the number of digits is not kept. -/
def withoutDigits : AsmArg → AsmArg
  | .int _ v => .int 0 v
  | .vec _ vs => .vec 0 vs
  | .img bytes => .img bytes

/-- Every number of an operand can be written in the digits the operand carries. -/
def fitsItsDigits : AsmArg → Prop
  | .int n v => 0 < n ∧ v < 16 ^ n
  | .vec n vs => 0 < n ∧ vs ≠ [] ∧ ∀ v ∈ vs, v < 16 ^ n
  | .img _ => True

theorem readArg_printArg {a : AsmArg} (h : fitsItsDigits a) : readArg (printArg a) = some (withoutDigits a) := by
  match a, h with
  | .int _ _, ⟨hn, hv⟩ => exact readArg_int hn hv
  | .vec _ (v :: vs), ⟨hn, _, hvs⟩ => exact readArg_vec hn v vs hvs
  | .img bytes, _ => exact readArg_img bytes

theorem fitsItsDigits_arg64 (v : Word64) : fitsItsDigits (arg64 v) := ⟨by decide, v.isLt⟩

theorem fitsItsDigits_arg32 (v : Word32) : fitsItsDigits (arg32 v) := ⟨by decide, v.isLt⟩

theorem fitsItsDigits_arg8 (v : Byte) : fitsItsDigits (arg8 v) := ⟨by decide, v.isLt⟩

theorem fitsItsDigits_vec64 {vs : List Word64} (h : vs ≠ []) : fitsItsDigits (vec64 vs) :=
  ⟨by decide, by simpa using h, List.forall_mem_map.mpr fun v _ => v.isLt⟩

theorem fitsItsDigits_vec32 {vs : List Word32} (h : vs ≠ []) : fitsItsDigits (vec32 vs) :=
  ⟨by decide, by simpa using h, List.forall_mem_map.mpr fun v _ => v.isLt⟩

theorem fitsItsDigits_img (bytes : List Byte) : fitsItsDigits (.img bytes) := trivial

theorem fitsItsDigits_of_mem_asmArgs (i : Instr) : ∀ a ∈ asmArgs i, fitsItsDigits a := by
  cases i <;>
    simp [asmArgs, fitsItsDigits_arg64, fitsItsDigits_arg32, fitsItsDigits_arg8, fitsItsDigits_vec64,
      fitsItsDigits_vec32, fitsItsDigits_img]

theorem asmArgs_length_le_two (i : Instr) : (asmArgs i).length ≤ 2 := by
  cases i <;> simp [asmArgs]

/-- The operands of a well-formed command mean that command to the row it belongs to. -/
theorem instrOfArgs_asmArgs {i : Instr} (h : i.wf = true) :
    instrOfArgs (instrOp i) ((asmArgs i).map withoutDigits) = some i := by
  cases i with
  | x256Load img | x128Load img => exact if_pos (eq_of_beq h)
  | _ =>
    simp [instrOp, asmArgs, withoutDigits, arg64, arg32, arg8, vec64, vec32, instrOfArgs, wordOf_toNat]

/-- The line of a command is its name and none, one or two operands, and each is read as it was printed. -/
theorem readLine_printLine (i : Instr) :
    readLine (printLine i) = instrOfArgs (instrOp i) ((asmArgs i).map withoutDigits) := by
  have hfits := fitsItsDigits_of_mem_asmArgs i
  have hlen := asmArgs_length_le_two i
  rw [printLine]
  match asmArgs i, hfits, hlen with
  | [], _, _ => rw [List.append_nil]; exact readLine_bare (instrOp i)
  | [a], hfits, _ => exact readLine_one _ a _ (readArg_printArg (hfits a (by simp)))
  | [a, b], hfits, _ =>
    exact readLine_two _ a b _ _ (readArg_printArg (hfits a (by simp))) (readArg_printArg (hfits b (by simp)))
  | _ :: _ :: _ :: _, _, hlen => simp at hlen

/-- Settles O38: reading undoes printing (`readLine_printLine`, `instrOfArgs_asmArgs`), so a line has at most one
command. -/
theorem readerInvertsPrinter : Obligations.ReaderInvertsPrinter := by
  have inverts (i : Instr) (hwf : i.wf = true) : readLine (printLine i) = some i := by
    rw [readLine_printLine, instrOfArgs_asmArgs hwf]
  refine ⟨inverts, fun i j hi hj hline => ?_⟩
  exact Option.some.inj (by rw [← inverts i hi, ← inverts j hj, hline])

/-! ### Frames spelled out -/

/-- Settles O37, by running the decoder. -/
theorem spelledFramesDecode : Obligations.SpelledFramesDecode := by
  refine ⟨?_, ?_, ?_, ?_, ?_, ?_⟩ <;> rfl

end Sys2Proof.Machine

/-! ## The whole machine: the port, legal answers, engines in use, progress, the access table, several blocks -/

namespace Sys2Proof.Machine

open Spec

/-! ### The port -/

/-- Settles O27: at reset both records are empty, and the three other requests are the cases of `serveHost`. -/
theorem portWithoutFrame : Obligations.PortWithoutFrame :=
  ⟨⟨reset_requests, reset_responses⟩, fun _ hreq => serveHost_idle hreq,
    fun _ _ hreq => ⟨_, step_reset hreq, rfl, rfl⟩, fun _ _ hreq => serveHost_overlap hreq⟩

/-- Settles O29: step and exec both answer the state `after` the command. -/
theorem stepRunsDecodedCommand : Obligations.StepRunsDecodedCommand :=
  fun _ _ _ i hreq hdec _ => (step_of_decodeFrame_instr hreq hdec).trans (exec_eq i _).symm

/-- A step takes the host's next request, if there is one, and leaves the others. -/
theorem requests_of_step {s t : State} (h : step s = .next t) : t.requests = s.requests.tail := by
  rcases step_cases h with ⟨hreq, rfl⟩ | ⟨_, _, i, hreq, -, rfl⟩ | ⟨_, _, r, hreq, -, rfl⟩ | ⟨_, hreq, rfl⟩
  · simp [hreq]
  · simp [hreq, after_requests]
  · simp [hreq]
  · simp [hreq]

theorem mem_requests_of_step {s t : State} (h : step s = .next t) {r : Request} (hr : r ∈ t.requests) :
    r ∈ s.requests :=
  List.mem_of_mem_tail (requests_of_step h ▸ hr)

/-! ### Legal answers -/

theorem resultLength_mem_resultLengths (o : Op) : resultLength o ∈ resultLengths := by cases o <;> decide

theorem responseLegal_reject (r : Reject) : responseLegal [statusCode (rejectStatus r)] := by cases r <;> decide

/-- A command of the block answers `OK` and the result area of its row, or `E_ROTRANGE`. -/
theorem responseLegal_answer {i : Instr} (hwf : i.wf = true) (v : Vec4 64) (u : Vec4 32) :
    responseLegal (answer i v u) := by
  by_cases hout : rotatesOutOfRange i
  · rw [answer_of_rotatesOutOfRange hout]
    decide
  · obtain ⟨result, hresult, hlen⟩ := answer_ok hwf hout v u
    rw [hresult]
    exact .inl ⟨rfl, hlen ▸ resultLength_mem_resultLengths _⟩

/-- Whatever the bytes of a frame, a step on it takes it and gives one legal response (R62, R221). -/
theorem step_frame_answers {s : State} {bytes : List Byte} {rest : List Request}
    (hreq : s.requests = .frame bytes :: rest) :
    ∃ t r, step s = .next t ∧ t.requests = rest ∧ t.responses = s.responses ++ [r] ∧ responseLegal r := by
  rcases step_frame hreq with ⟨i, hdec, hstep⟩ | ⟨r, -, hstep⟩
  · exact ⟨_, _, hstep, after_requests _ _, after_responses _ _, responseLegal_answer (wf_of_decodeFrame hdec) _ _⟩
  · exact ⟨_, _, hstep, rfl, rfl, responseLegal_reject r⟩

/-- A step gives no response, or one legal response. -/
theorem responses_of_step {s t : State} (h : step s = .next t) :
    t.responses = s.responses ∨ ∃ r, responseLegal r ∧ t.responses = s.responses ++ [r] := by
  rcases step_cases h with ⟨-, rfl⟩ | ⟨_, rest, i, -, hdec, rfl⟩ | ⟨_, rest, r, -, -, rfl⟩ | ⟨rest, -, rfl⟩
  · exact .inl rfl
  · exact .inr ⟨_, responseLegal_answer (wf_of_decodeFrame hdec) _ _, after_responses _ _⟩
  · exact .inr ⟨_, responseLegal_reject r, rfl⟩
  · exact .inl rfl

/-- Settles O44: what a step adds to the record is legal (`responses_of_step`). -/
theorem answersStayLegal : Obligations.AnswersStayLegal := by
  intro s t hlegal h r hr
  rcases responses_of_step h with hsame | ⟨a, ha, happend⟩
  · exact hlegal r (hsame ▸ hr)
  · rw [happend, List.mem_append, List.mem_singleton] at hr
    rcases hr with hr | rfl
    · exact hlegal r hr
    · exact ha

/-! ### Engines in use -/

/-- The only way a command makes the 64-bit engine degenerate is a vector taken raw from the host (R260): the default
and the integer seeds give vectors that are not all-zero, and generation is one to one with the all-zero vector
fixed. -/
theorem new256_ne_zero {i : Instr} {v : Vec4 64} (hv : v ≠ Vec4.zero 64)
    (hraw : ∀ u, bringsRaw256 i u → u ≠ Vec4.zero 64) : new256 i v ≠ Vec4.zero 64 := by
  cases i with
  | x256Init => exact Config.defaultState256_ne_zero
  | x256Seed64 seed => exact seed256_ne_zero seed
  | x256Seedraw w0 w1 w2 w3 => exact hraw _ (.inl rfl)
  | x256Seedseq b0 b1 b2 b3 b4 b5 b6 b7 => exact hraw _ (.inr (.inl ⟨_, _, _, _, _, _, _, _, rfl, rfl⟩))
  | x256Next => exact mt next256_eq_zero.mp hv
  | x256Discard n => exact mt (discard256_eq_zero n.toNat).mp hv
  | x256Load img =>
    rw [new256_x256Load]
    cases himg : deser256 img with
    | none => exact hv
    | some u => exact hraw u (.inr (.inr ⟨img, rfl, himg⟩))
  | _ => exact hv

/-- The same for the 32-bit engine, whose integer seeds stand under the host's condition (log entry 12). -/
theorem new128_ne_zero {i : Instr} {v : Vec4 32} (hv : v ≠ Vec4.zero 32)
    (hraw : ∀ u, bringsRaw128 i u ∨ seeds128 i u → u ≠ Vec4.zero 32) : new128 i v ≠ Vec4.zero 32 := by
  cases i with
  | x128Init => exact Config.defaultState128_ne_zero
  | x128Seed64 seed => exact hraw _ (.inr (.inl ⟨seed, rfl, rfl⟩))
  | x128Seed32 seed => exact hraw _ (.inr (.inr ⟨seed, rfl, rfl⟩))
  | x128Seedraw w0 w1 w2 w3 => exact hraw _ (.inl (.inl rfl))
  | x128Seedseq b0 b1 b2 b3 => exact hraw ⟨b0, b1, b2, b3⟩ (.inl (.inr (.inl rfl)))
  | x128Seedraw64 q0 q1 => exact hraw _ (.inl (.inr (.inr (.inl ⟨q0, q1, rfl, rfl⟩))))
  | x128Next => exact mt next128_eq_zero.mp hv
  | x128Discard n => exact mt (discard128_eq_zero n.toNat).mp hv
  | x128Load img =>
    rw [new128_x128Load]
    cases himg : deser128 img with
    | none => exact hv
    | some u => exact hraw u (.inl (.inr (.inr (.inr ⟨img, rfl, himg⟩))))
  | _ => exact hv

/-- Settles O45: of what a step can do (`step_cases`), a command keeps the vector not all-zero by `new256_ne_zero`,
reset gives the default, and the requests that remain were pending before. -/
theorem engine256StaysInUse : Obligations.Engine256StaysInUse := by
  rintro s t ⟨hv, hhost⟩ h
  refine ⟨?_, fun r hr => hhost r (mem_requests_of_step h hr)⟩
  rcases step_cases h with ⟨-, rfl⟩ | ⟨bytes, rest, i, hreq, hdec, rfl⟩ | ⟨_, _, _, -, -, rfl⟩ | ⟨_, -, rfl⟩
  · exact hv
  · have havoids : (Request.frame bytes).avoidsZero256 := hhost _ (by simp [hreq])
    rw [after_s256]
    exact new256_ne_zero hv fun u hraw => havoids bytes i u rfl hdec hraw
  · exact hv
  · exact Config.defaultState256_ne_zero

/-- Settles O46, as O45 with `new128_ne_zero`. -/
theorem engine128StaysInUse : Obligations.Engine128StaysInUse := by
  rintro s t ⟨hv, hhost⟩ h
  refine ⟨?_, fun r hr => hhost r (mem_requests_of_step h hr)⟩
  rcases step_cases h with ⟨-, rfl⟩ | ⟨bytes, rest, i, hreq, hdec, rfl⟩ | ⟨_, _, _, -, -, rfl⟩ | ⟨_, -, rfl⟩
  · exact hv
  · have havoids : (Request.frame bytes).avoidsZero128 := hhost _ (by simp [hreq])
    rw [after_s128]
    exact new128_ne_zero hv fun u hraw => havoids bytes i u rfl hdec hraw
  · exact hv
  · exact Config.defaultState128_ne_zero

/-- Settles O47: both records are empty at reset, and the defaults are not all-zero. -/
theorem invariantsAtReset : Obligations.InvariantsAtReset :=
  ⟨fun _ hr => absurd hr List.not_mem_nil,
    ⟨Config.defaultState256_ne_zero, fun _ hr => absurd hr List.not_mem_nil⟩,
    ⟨Config.defaultState128_ne_zero, fun _ hr => absurd hr List.not_mem_nil⟩⟩

/-! ### Progress -/

/-- The machine stops on an overlap only. -/
theorem exists_step_of_hostObeys {s : State} (h : s.hostObeys) : ∃ t, step s = .next t := by
  cases hreq : s.requests with
  | nil => exact ⟨_, serveHost_idle hreq⟩
  | cons r rest =>
    cases r with
    | frame bytes =>
      obtain ⟨t, _, hstep, -⟩ := step_frame_answers hreq
      exact ⟨t, hstep⟩
    | reset => exact ⟨_, step_reset hreq⟩
    | overlap => exact absurd (by simp [hreq]) h

theorem hostObeys_of_step {s t : State} (hs : s.hostObeys) (h : step s = .next t) : t.hostObeys :=
  mt (mem_requests_of_step h) hs

/-- Settles O49, by induction on the number of steps: a host that obeys does not stop the machine, and it still obeys
after the step. -/
theorem obeyedProtocolNeverStops : Obligations.ObeyedProtocolNeverStops := by
  intro k
  induction k with
  | zero => exact fun s hs => ⟨s, rfl, hs⟩
  | succ k ih =>
    intro s hs
    obtain ⟨u, hstep⟩ := exists_step_of_hostObeys hs
    obtain ⟨t, hrun, ht⟩ := ih u (hostObeys_of_step hs hstep)
    exact ⟨t, (core_run_succ core k s u hstep).trans hrun, ht⟩

/-- Settles O48, by induction on the frames: each takes one step and adds one legal response
(`step_frame_answers`). -/
theorem everyFrameIsAnswered : Obligations.EveryFrameIsAnswered := by
  intro frames tail
  induction frames with
  | nil => exact fun s hreq => ⟨s, [], rfl, hreq, (List.append_nil _).symm, rfl, fun _ hr => absurd hr List.not_mem_nil⟩
  | cons bytes frames ih =>
    intro s hreq
    obtain ⟨u, r, hstep, hreq', hresp, hlegal⟩ := step_frame_answers hreq
    obtain ⟨t, rs, hrun, htail, hresps, hlen, hlegals⟩ := ih u hreq'
    refine ⟨t, r :: rs, (core_run_succ core frames.length s u hstep).trans hrun, htail, ?_, by simp [hlen], ?_⟩
    · rw [hresps, hresp, List.append_assoc, List.singleton_append]
    · exact List.forall_mem_cons.mpr ⟨hlegal, hlegals⟩

/-! ### Frames answered without error -/

theorem noErrors_append {s t : State} {r : List Byte} (h : t.responses = s.responses ++ [r]) :
    t.noErrors ↔ s.noErrors ∧ r.head? = some 0x00#8 := by
  simp only [State.noErrors, h, List.forall_mem_append, List.forall_mem_singleton]

theorem answer_head_ok_iff {i : Instr} (hwf : i.wf = true) (v : Vec4 64) (u : Vec4 32) :
    (answer i v u).head? = some 0x00#8 ↔ ¬ rotatesOutOfRange i := by
  refine ⟨fun hok hout => ?_, fun hin => by_contra fun herror => hin (rotatesOutOfRange_of_answer_not_ok hwf herror)⟩
  rw [answer_of_rotatesOutOfRange hout] at hok
  exact absurd hok (by decide)

theorem not_rotatesOutOfRange_iff (i : Instr) : ¬ rotatesOutOfRange i ↔
    (∀ x k, i = .primRotl64 x k → 0 < k.toNat ∧ k.toNat < 64) ∧
      (∀ x k, i = .primRotl32 x k → 0 < k.toNat ∧ k.toNat < 32) := by
  cases i with
  | primRotl64 x k | primRotl32 x k => simp [rotatesOutOfRange, Nat.pos_iff_ne_zero]
  | _ => simp [rotatesOutOfRange]

/-- Settles O50: the response that a frame adds to the record is `OK` exactly when the frame decodes
(`responseLegal_reject` carries an error code) and the command is no rotation out of range. -/
theorem errorFreeFrames : Obligations.ErrorFreeFrames := by
  intro s bytes rest hreq
  cases hdec : decodeFrame bytes with
  | instr i =>
    refine ⟨_, step_of_decodeFrame_instr hreq hdec, ?_⟩
    rw [noErrors_append (s := s) (after_responses i (setRequests rest s)), answer_head_ok_iff (wf_of_decodeFrame hdec),
      not_rotatesOutOfRange_iff]
    simp
  | reject r =>
    refine ⟨_, step_of_decodeFrame_reject hreq hdec, ?_⟩
    rw [noErrors_append (s := s) rfl]
    cases r <;> simp [rejectStatus, statusCode]

/-! ### The access table, and the records -/

theorem new256_of_notMem_readers256 {i : Instr} (hread : instrOp i ∉ readers256) (hwrite : instrOp i ∈ writers256)
    (hwf : i.wf = true) (v v' : Vec4 64) : new256 i v' = new256 i v := by
  cases i with
  | x256Init | x256Seed64 | x256Seedraw | x256Seedseq => rfl
  | x256Load img => rw [new256_x256Load, new256_x256Load, deser256_of_length (eq_of_beq hwf)]; rfl
  | x256Next | x256Discard => exact absurd (by simp [instrOp, readers256]) hread
  | _ => exact absurd hwrite (by simp [instrOp, writers256])

theorem new128_of_notMem_readers128 {i : Instr} (hread : instrOp i ∉ readers128) (hwrite : instrOp i ∈ writers128)
    (hwf : i.wf = true) (v v' : Vec4 32) : new128 i v' = new128 i v := by
  cases i with
  | x128Init | x128Seed64 | x128Seed32 | x128Seedraw | x128Seedraw64 | x128Seedseq => rfl
  | x128Load img => rw [new128_x128Load, new128_x128Load, deser128_of_length (eq_of_beq hwf)]; rfl
  | x128Next | x128Discard => exact absurd (by simp [instrOp, readers128]) hread
  | _ => exact absurd hwrite (by simp [instrOp, writers128])

theorem answer_of_notMem_readers256 {i : Instr} (h : instrOp i ∉ readers256) (v v' : Vec4 64) (u : Vec4 32) :
    answer i v' u = answer i v u := by
  cases i with
  | x256Next | x256Eq | x256Save => exact absurd (by simp [instrOp, readers256]) h
  | _ => rfl

theorem answer_of_notMem_readers128 {i : Instr} (h : instrOp i ∉ readers128) (v : Vec4 64) (u u' : Vec4 32) :
    answer i v u' = answer i v u := by
  cases i with
  | x128Next | x128Eq | x128Save => exact absurd (by simp [instrOp, readers128]) h
  | _ => rfl

/-- Settles O42: after a command the other vector is a function of itself alone (`after_s128`), and the vector and the
response are those of the lemmas on the tables of writers and readers. -/
theorem accessTable : Obligations.AccessTable := by
  constructor
  · intro i s v hwf
    refine ⟨_, _, exec_eq i s, exec_eq i _, fun hwrite => ?_, fun hread => ⟨?_, ?_, fun hwrite => ?_⟩⟩
    · simp only [after_s256, new256_of_notMem_writers256 hwrite, and_self]
    · simp only [after_s128]
    · simp only [after_responses, answer_of_notMem_readers256 hread s.s256]
    · simp only [after_s256, new256_of_notMem_readers256 hread hwrite hwf s.s256]
  · intro i s v hwf
    refine ⟨_, _, exec_eq i s, exec_eq i _, fun hwrite => ?_, fun hread => ⟨?_, ?_, fun hwrite => ?_⟩⟩
    · simp only [after_s128, new128_of_notMem_writers128 hwrite, and_self]
    · simp only [after_s256]
    · simp only [after_responses, answer_of_notMem_readers128 hread _ s.s128]
    · simp only [after_s128, new128_of_notMem_readers128 hread hwrite hwf s.s128]

/-- Settles O43: the vectors and the response that `after` gives a command are functions of the two vectors. -/
theorem recordsHaveNoInfluence : Obligations.RecordsHaveNoInfluence :=
  fun i s _ _ => ⟨after i s, answer i s.s256 s.s128, exec_eq i s, after_requests i s, after_responses i s,
    exec_of_after rfl⟩

/-! ### Several blocks -/

theorem stepBlock_of_step {sys : BlockSystem} {n : Nat} {s t : State} (hs : sys[n]? = some s)
    (h : step s = .next t) : stepBlock n sys = .next (sys.set n t) := by
  simp only [stepBlock, hs, h]

/-- Settles O51: the step of a block replaces that block in the list (`stepBlock_of_step`), and replacements at two
places commute. -/
theorem blocksShareNothing : Obligations.BlocksShareNothing := by
  constructor
  · intro sys n s t hs h
    have hn : n < sys.length := (List.getElem?_eq_some_iff.mp hs).1
    exact ⟨_, stepBlock_of_step hs h, List.length_set, List.getElem?_set_self hn,
      fun m hm => List.getElem?_set_ne hm.symm⟩
  · intro sys m n s t s' t' hmn hs hstep ht htstep
    have ht_after : (sys.set m s')[n]? = some t := (List.getElem?_set_ne hmn).trans ht
    have hs_after : (sys.set n t')[m]? = some s := (List.getElem?_set_ne hmn.symm).trans hs
    refine ⟨_, _, _, stepBlock_of_step hs hstep, stepBlock_of_step ht_after htstep, stepBlock_of_step ht htstep, ?_⟩
    rw [stepBlock_of_step hs_after hstep, List.set_comm _ _ hmn]

end Sys2Proof.Machine

/-! ## What the spec derives: the engines, the mixer, the half-words, the images -/

namespace Sys2Proof.Machine

open Spec

/-! ### Lists of commands -/

/-- The state after a list of commands. -/
def afterAll (is : List Instr) (s : State) : State := is.foldl (fun t i => after i t) s

theorem afterAll_cons (i : Instr) (is : List Instr) (s : State) : afterAll (i :: is) s = afterAll is (after i s) := rfl

theorem afterAll_concat (is : List Instr) (i : Instr) (s : State) :
    afterAll (is ++ [i]) s = after i (afterAll is s) :=
  List.foldl_concat ..

/-- A list of commands always completes, since each command answers a next state. -/
theorem execAll_eq (is : List Instr) (s : State) : execAll is s = .next (afterAll is s) := by
  induction is generalizing s with
  | nil => rfl
  | cons i is ih => rw [execAll, exec_eq, afterAll_cons]; exact ih _

/-- Settles O28: each INIT writes the default of its own unit, which reset gives too, and leaves the other unit's. -/
theorem initOfBothUnitsIsReset : Obligations.InitOfBothUnitsIsReset :=
  fun s => ⟨_, _, execAll_eq _ s, execAll_eq _ s, rfl, rfl, rfl, rfl⟩

/-- `n` times NEXT leave the vector that DISCARD `n` leaves, by the induction of `discardSteps`. -/
theorem afterAll_replicate_x256Next_s256 (n : Nat) (s : State) :
    (afterAll (List.replicate n .x256Next) s).s256 = discard256 s.s256 n := by
  induction n generalizing s with
  | zero => rfl
  | succ n ih => rw [List.replicate_succ, afterAll_cons, ih, after_s256]; rfl

theorem afterAll_replicate_x128Next_s128 (n : Nat) (s : State) :
    (afterAll (List.replicate n .x128Next) s).s128 = discard128 s.s128 n := by
  induction n generalizing s with
  | zero => rfl
  | succ n ih => rw [List.replicate_succ, afterAll_cons, ih, after_s128]; rfl

theorem getLast?_after_responses (i : Instr) (s : State) :
    (after i s).responses.getLast? = some (answer i s.s256 s.s128) := by
  rw [after_responses, List.getLast?_concat]

/-- The vector and the response of X256.NEXT depend on `s256` alone. -/
theorem after_x256Next_congr {s u : State} (h : s.s256 = u.s256) :
    (after .x256Next s).s256 = (after .x256Next u).s256 ∧
      (after .x256Next s).responses.getLast? = (after .x256Next u).responses.getLast? := by
  rw [after_s256, after_s256, getLast?_after_responses, getLast?_after_responses, h]
  exact ⟨rfl, rfl⟩

theorem after_x128Next_congr {s u : State} (h : s.s128 = u.s128) :
    (after .x128Next s).s128 = (after .x128Next u).s128 ∧
      (after .x128Next s).responses.getLast? = (after .x128Next u).responses.getLast? := by
  rw [after_s128, after_s128, getLast?_after_responses, getLast?_after_responses, h]
  exact ⟨rfl, rfl⟩

/-- Settles O56: before the last NEXT of either run the vector is the same (`afterAll_replicate_x256Next_s256`,
`afterAll_replicate_x128Next_s128`), and that NEXT depends on nothing else. -/
theorem discardThenNext : Obligations.DiscardThenNext := by
  constructor
  · intro s n
    refine ⟨_, _, execAll_eq _ s, execAll_eq _ s, ?_⟩
    rw [List.replicate_succ', afterAll_concat]
    exact after_x256Next_congr ((after_s256 _ s).trans (afterAll_replicate_x256Next_s256 n.toNat s).symm)
  · intro s n
    refine ⟨_, _, execAll_eq _ s, execAll_eq _ s, ?_⟩
    rw [List.replicate_succ', afterAll_concat]
    exact after_x128Next_congr ((after_s128 _ s).trans (afterAll_replicate_x128Next_s128 n.toNat s).symm)

/-- NEXT and DISCARD do not make a 64-bit engine degenerate, in any number and order. -/
theorem afterAll_generation_s256_ne_zero {is : List Instr} (h : ∀ i ∈ is, i = .x256Next ∨ ∃ n, i = .x256Discard n)
    {s : State} (hs : s.s256 ≠ Vec4.zero 64) : (afterAll is s).s256 ≠ Vec4.zero 64 := by
  induction is generalizing s with
  | nil => exact hs
  | cons i is ih =>
    obtain ⟨hi, his⟩ := List.forall_mem_cons.mp h
    rw [afterAll_cons]
    refine ih his ?_
    rw [after_s256]
    rcases hi with rfl | ⟨n, rfl⟩
    · exact mt next256_eq_zero.mp hs
    · exact mt (discard256_eq_zero n.toNat).mp hs

/-- The mixer takes no two words in a row to zero. -/
theorem not_mix_mix_zero (x : Word64) : ¬ (mix x = 0#64 ∧ mix (mix x) = 0#64) := by
  rintro ⟨h0, h1⟩
  rw [h0] at h1
  exact mix_zero_ne_zero h1

/-- Settles O55: each word of the seeded vector is the mixer of the word before it (`not_mix_mix_zero`), so the vector
is not all-zero, and generation keeps it so (`afterAll_generation_s256_ne_zero`). -/
theorem seededEngineNeverDegenerates : Obligations.SeededEngineNeverDegenerates := fun s seed =>
  ⟨_, exec_eq _ s, not_mix_mix_zero _, not_mix_mix_zero _, not_mix_mix_zero _,
    fun is his => ⟨_, execAll_eq is _, afterAll_generation_s256_ne_zero his (seed256_ne_zero seed)⟩⟩

/-! ### The generation step and the mixer as functions -/

/-- The rotation of R100 and R101 is that of the library, inside its domain. -/
theorem rotl_eq_rotateLeft {w : Nat} (x : BitVec w) (k : Nat) (h : 0 < k ∧ k < w) : rotl x k h = x.rotateLeft k := by
  rw [rotl, BitVec.rotateLeft_def, Nat.mod_eq_of_lt h.2]

/-- Settles O16: each component of `engineStep_words` with its exclusive ors regrouped. -/
theorem nextAsSimultaneousEquations : Obligations.NextAsSimultaneousEquations := by
  constructor
  · intro s
    refine ⟨_, exec_of_after (after_x256Next s), rfl, ?_, ?_, rfl, rotl_eq_rotateLeft _ 45 (by decide)⟩
    · exact (BitVec.xor_assoc _ _ _).symm
    · exact (BitVec.xor_assoc _ _ _).symm
  · intro s
    refine ⟨_, exec_of_after (after_x128Next s), rfl, ?_, ?_, rfl, rotl_eq_rotateLeft _ 11 (by decide)⟩
    · exact (BitVec.xor_assoc _ _ _).symm
    · exact (BitVec.xor_assoc _ _ _).symm

theorem finite_bitVec (w : Nat) : Finite (BitVec w) :=
  Finite.of_injective BitVec.toFin fun _ _ => BitVec.eq_of_toFin_eq

/-- There are finitely many vectors, so a step that loses nothing reaches each of them. -/
theorem finite_vec4 (w : Nat) : Finite (Vec4 w) :=
  have := finite_bitVec w
  Finite.of_injective (fun v : Vec4 w => (v.w0, v.w1, v.w2, v.w3)) fun _ _ h => by
    simpa [Vec4.ext_iff] using h

/-- Settles O52: the steps are one to one (`next256_injective`, `next128_injective`) on a finite space, and the
all-zero vector is fixed. -/
theorem nextIsBijective : Obligations.NextIsBijective := by
  have := finite_vec4 64
  have := finite_vec4 32
  refine ⟨Finite.injective_iff_bijective.mp fun _ _ => next256_injective,
    Finite.injective_iff_bijective.mp fun _ _ => next128_injective, fun s t h => ?_, fun s t h => ?_⟩
  · rw [exec_eq, Host.Outcome.next.injEq] at h
    rw [← h, after_s256]
    exact next256_eq_zero
  · rw [exec_eq, Host.Outcome.next.injEq] at h
    rw [← h, after_s128]
    exact next128_eq_zero

/-- Settles O53: the step of the all-zero vector is the result 0 and that vector (`next256_zero`, `next128_zero`), and
so is any number of steps. -/
theorem allZeroIsAbsorbing : Obligations.AllZeroIsAbsorbing := by
  constructor
  · rintro ⟨v, u, rq, rs⟩ (rfl : v = _)
    refine ⟨exec_of_after ?_, fun n => exec_of_after ?_⟩
    · rw [after_x256Next, nextStep256_eq_next256, next256_zero]; rfl
    · rw [after_x256Discard, discardSpec256_eq_discard256, (discard256_eq_zero _).mpr rfl]
  · rintro ⟨v, u, rq, rs⟩ (rfl : u = _)
    refine ⟨exec_of_after ?_, fun n => exec_of_after ?_⟩
    · rw [after_x128Next, nextStep128_eq_next128, next128_zero]; rfl
    · rw [after_x128Discard, discardSpec128_eq_discard128, (discard128_eq_zero _).mpr rfl]

/-- Settles O54: the mixer is one to one (`mix_injective`) on a finite space; its zero and the two values are
computed. -/
theorem mixIsBijective : Obligations.MixIsBijective := by
  have := finite_bitVec 64
  have hzero : mix 0x61C8864680B583EB#64 = 0#64 := by decide
  refine ⟨Finite.injective_iff_bijective.mp fun _ _ => mix_injective, fun x => ⟨fun h => ?_, fun h => ?_⟩, by decide⟩
  · exact mix_injective (h.trans hzero.symm)
  · rw [h, hzero]

/-! ### Half-words and rotations -/

theorem join32_high32_low32 (x : Word64) : join32 (high32 x) (low32 x) = x := by
  apply BitVec.eq_of_toNat_eq
  rw [join32_toNat, high32_toNat, low32_toNat]
  omega

section

variable {w k : Nat} (h : 0 < k ∧ k < w) (h' : 0 < w - k ∧ w - k < w)

/-- Bit `i` moves to `(i + k) mod w` and from there to `(i + k + w - k) mod w = i`. -/
theorem rotl_rotl_sub (x : BitVec w) : rotl (rotl x k h) (w - k) h' = x := by
  apply BitVec.eq_of_getLsbD_eq
  intro i hi
  have hback : ((i + k) % w + (w - k)) % w = i := by
    rw [Nat.mod_add_mod, show i + k + (w - k) = i + w by omega, Nat.add_mod_right, Nat.mod_eq_of_lt hi]
  calc (rotl (rotl x k h) (w - k) h').getLsbD i
      = (rotl (rotl x k h) (w - k) h').getLsbD (((i + k) % w + (w - k)) % w) := by rw [hback]
    _ = (rotl x k h).getLsbD ((i + k) % w) := rotl_getLsbD _ _ _ h' (Nat.mod_lt _ (by omega))
    _ = x.getLsbD i := rotl_getLsbD x k i h hi

theorem rotl_zero : rotl 0#w k h = 0#w := by
  simp [rotl]

theorem rotl_allOnes : rotl (BitVec.allOnes w) k h = BitVec.allOnes w := by
  apply BitVec.eq_of_getLsbD_eq
  intro i hi
  have hbit : k ≤ i ∨ w - k + i < w := by omega
  simp [rotl, hi, hbit]

end

theorem rotl64_32_eq_join32 (x : Word64) (h : 0 < 32 ∧ 32 < 64) : rotl64 x 32 h = join32 (low32 x) (high32 x) := by
  have hlow : (low32 x).setWidth 64 <<< 32 = x <<< 32 := by
    apply BitVec.eq_of_toNat_eq
    simp only [BitVec.toNat_shiftLeft, BitVec.toNat_setWidth, low32_toNat, Nat.shiftLeft_eq]
    omega
  have hhigh : (high32 x).setWidth 64 = x >>> 32 := by
    apply BitVec.eq_of_toNat_eq
    simp only [BitVec.toNat_setWidth, high32_toNat, BitVec.toNat_ushiftRight, Nat.shiftRight_eq_div_pow]
    omega
  rw [join32, hlow, hhigh]
  rfl

/-- Settles O58, by the lemmas on words of any width: a rotation cancels (`rotl_rotl_sub`) and fixes the two constant
words. -/
theorem halfwordAndRotationIdentities : Obligations.HalfwordAndRotationIdentities :=
  ⟨join32_high32_low32, fun h l => ⟨high32_join32 h l, low32_join32 h l⟩,
    fun x _ h h' => ⟨rotl_rotl_sub h h' x, rotl_zero h, rotl_allOnes h⟩,
    fun x _ h h' => ⟨rotl_rotl_sub h h' x, rotl_zero h, rotl_allOnes h⟩, rotl64_32_eq_join32⟩

/-! ### Images -/

/-- A word and its separator, as they stand in an image (R200, R204). -/
def wordImage {w : Nat} (n : Nat) (u : BitVec w) : List Byte := rspWrite n u ++ [separator]

@[simp] theorem wordImage_length {w : Nat} (n : Nat) (u : BitVec w) : (wordImage n u).length = n + 1 := by
  simp [wordImage]

theorem serialize_eq_wordImage {w : Nat} (n : Nat) (v : Vec4 w) :
    serialize n v = wordImage n v.w0 ++ wordImage n v.w1 ++ wordImage n v.w2 ++ wordImage n v.w3 := rfl

/-- Word `i` of a vector and its separator stand at offset `(n + 1) * i` of the image. -/
theorem serialize_split {w : Nat} (n : Nat) (v : Vec4 w) (i : Fin 4) :
    ∃ pre post, serialize n v = pre ++ (wordImage n (v.word i) ++ post) ∧ pre.length = (n + 1) * i := by
  rw [serialize_eq_wordImage]
  match i with
  | 0 => exact ⟨[], wordImage n v.w1 ++ wordImage n v.w2 ++ wordImage n v.w3, by simp [Vec4.word], rfl⟩
  | 1 => exact ⟨wordImage n v.w0, wordImage n v.w2 ++ wordImage n v.w3, by simp [Vec4.word], by simp⟩
  | 2 => exact ⟨wordImage n v.w0 ++ wordImage n v.w1, wordImage n v.w3, by simp [Vec4.word], by
    simp only [List.length_append, wordImage_length]; omega⟩
  | 3 => exact ⟨wordImage n v.w0 ++ wordImage n v.w1 ++ wordImage n v.w2, [], by simp [Vec4.word], by
    simp only [List.length_append, wordImage_length]; omega⟩

theorem take_drop_serialize {w : Nat} (n : Nat) (v : Vec4 w) (i : Fin 4) :
    ((serialize n v).drop ((n + 1) * i)).take n = rspWrite n (v.word i) := by
  obtain ⟨pre, post, hsplit, hpre⟩ := serialize_split n v i
  rw [hsplit, List.drop_left' hpre, wordImage, List.append_assoc, List.take_left' (rspWrite_length n _)]

theorem getElem?_serialize {w : Nat} (n : Nat) (v : Vec4 w) (i : Fin 4) {r : Nat} (hr : r ≤ n) :
    (serialize n v)[(n + 1) * i + r]? = if r = n then some separator else (rspWrite n (v.word i))[r]? := by
  obtain ⟨pre, post, hsplit, hpre⟩ := serialize_split n v i
  rw [hsplit, ← hpre, List.getElem?_append_right (Nat.le_add_right _ _), Nat.add_sub_cancel_left,
    List.getElem?_append_left (by simp; omega), wordImage]
  split
  next hsep => rw [hsep, List.getElem?_append_right (by simp)]; simp
  next hword => rw [List.getElem?_append_left (by simp; omega)]

theorem word_deserialize (w n : Nat) (img : List Byte) (i : Fin 4) :
    (deserialize w n img).word i = opRead w img ((n + 1) * i) := by
  fin_cases i <;> simp [deserialize, Vec4.word, Nat.mul_comm]

theorem vec4_ext_word {w : Nat} {u v : Vec4 w} (h : ∀ i, u.word i = v.word i) : u = v :=
  Vec4.ext (h 0) (h 1) (h 2) (h 3)

/-- Reading an image back gives the vector it was made of (R200 with R202, R204 with R206). -/
theorem deserialize_serialize {w : Nat} (hw : w = 8 * (w / 8)) (v : Vec4 w) :
    deserialize w (w / 8) (serialize (w / 8) v) = v :=
  vec4_ext_word fun i => (word_deserialize _ _ _ i).trans (opRead_of_chunk _ hw (take_drop_serialize _ v i))

theorem imageWords_image256 (v : Vec4 64) : imageWords 64 8 (image 8 v) = v := by
  rw [imageWords_eq_deserialize, image_eq_serialize]
  exact deserialize_serialize (w := 64) rfl v

theorem imageWords_image128 (v : Vec4 32) : imageWords 32 4 (image 4 v) = v := by
  rw [imageWords_eq_deserialize, image_eq_serialize]
  exact deserialize_serialize (w := 32) rfl v

/-- LOAD of the image of a vector gives that vector, in any state. -/
theorem after_x256Load_image_s256 (v : Vec4 64) (s : State) : (after (.x256Load (image 8 v)) s).s256 = v := by
  have hlen : (image 8 v).length = 36 := by rw [image_eq_ser256, ser256_length]
  rw [after_s256, new256_x256Load, deser256_of_length hlen, imageWords_image256, Option.getD_some]

theorem after_x128Load_image_s128 (v : Vec4 32) (s : State) : (after (.x128Load (image 4 v)) s).s128 = v := by
  have hlen : (image 4 v).length = 20 := by rw [image_eq_ser128, ser128_length]
  rw [after_s128, new128_x128Load, deser128_of_length hlen, imageWords_image128, Option.getD_some]

/-- Settles O24: SAVE answers the image of the vector, and LOAD of that image gives the vector back without touching
the other. -/
theorem saveThenLoadRestores : Obligations.SaveThenLoadRestores :=
  ⟨fun s u => ⟨_, _, exec_of_after (after_x256Save s), exec_eq _ u, after_x256Load_image_s256 _ u, after_s128 _ u⟩,
    fun s u => ⟨_, _, exec_of_after (after_x128Save s), exec_eq _ u, after_x128Load_image_s128 _ u, after_s256 _ u⟩⟩

/-- The image of the words of an image has its bytes, but for the separators: offset `j` is byte `j % (n + 1)` of word
`j / (n + 1)`, or that word's separator. -/
theorem getElem?_serialize_deserialize {w : Nat} (hw : w = 8 * (w / 8)) {img : List Byte}
    (hlen : img.length = 4 * (w / 8 + 1)) {j : Nat} (hj : j < 4 * (w / 8 + 1)) :
    (serialize (w / 8) (deserialize w (w / 8) img))[j]? =
      if j % (w / 8 + 1) = w / 8 then some separator else img[j]? := by
  have hq : j / (w / 8 + 1) < 4 := (Nat.div_lt_iff_lt_mul (Nat.succ_pos _)).mpr hj
  have hr : j % (w / 8 + 1) < w / 8 + 1 := Nat.mod_lt _ (Nat.succ_pos _)
  have hsplit : j = (w / 8 + 1) * (j / (w / 8 + 1)) + j % (w / 8 + 1) := (Nat.div_add_mod _ _).symm
  have hat := getElem?_serialize (w / 8) (deserialize w (w / 8) img) ⟨_, hq⟩ (Nat.le_of_lt_succ hr)
  rw [← hsplit] at hat
  rw [hat]
  split
  next => rfl
  next hword =>
    have hend : (w / 8 + 1) * (j / (w / 8 + 1)) + w / 8 ≤ img.length := by
      have := Nat.mul_le_mul_left (w / 8 + 1) (Nat.le_of_lt_succ hq)
      omega
    rw [word_deserialize, rspWrite_opRead hw hend, List.getElem?_take_of_lt (by omega), List.getElem?_drop, ← hsplit]

/-- Settles O25, by `getElem?_serialize_deserialize` for either engine. -/
theorem loadThenSaveNormalises : Obligations.LoadThenSaveNormalises := by
  constructor
  · intro img s hlen
    refine ⟨_, _, exec_of_after (after_x256Load hlen s), exec_of_after (after_x256Save _), ?_, fun j hj => ?_⟩
    · rw [image_eq_ser256, ser256_length]
    · rw [image_eq_serialize]
      show (serialize 8 (imageWords 64 8 img))[j]? = _
      rw [imageWords_eq_deserialize]
      exact getElem?_serialize_deserialize (w := 64) rfl hlen hj
  · intro img s hlen
    refine ⟨_, _, exec_of_after (after_x128Load hlen s), exec_of_after (after_x128Save _), ?_, fun j hj => ?_⟩
    · rw [image_eq_ser128, ser128_length]
    · rw [image_eq_serialize]
      show (serialize 4 (imageWords 32 4 img))[j]? = _
      rw [imageWords_eq_deserialize]
      exact getElem?_serialize_deserialize (w := 32) rfl hlen hj

theorem deser256_of_length_ne {img : List Byte} (h : img.length ≠ 36) : deser256 img = none := if_neg h

theorem deser128_of_length_ne {img : List Byte} (h : img.length ≠ 20) : deser128 img = none := if_neg h

/-- LOAD of an image of another length changes nothing but the record of responses (log entry 11). -/
theorem after_x256Load_of_length_ne {img : List Byte} (h : img.length ≠ 36) (s : State) :
    after (.x256Load img) s = answered s [0x02#8] := by
  rw [after, answer_x256Load, new256_x256Load, deser256_of_length_ne h]
  rfl

theorem after_x128Load_of_length_ne {img : List Byte} (h : img.length ≠ 20) (s : State) :
    after (.x128Load img) s = answered s [0x02#8] := by
  rw [after, answer_x128Load, new128_x128Load, deser128_of_length_ne h]
  rfl

/-- Settles O23: deserialization has no value on another length, so the command is answered as an error. -/
theorem loadOfIllFormedImage : Obligations.LoadOfIllFormedImage :=
  ⟨fun _ s h => ⟨beq_eq_false_iff_ne.mpr h, exec_of_after (after_x256Load_of_length_ne h s)⟩,
    fun _ s h => ⟨beq_eq_false_iff_ne.mpr h, exec_of_after (after_x128Load_of_length_ne h s)⟩⟩

/-! ### Seeding from the same bytes -/

/-- Two opcodes under one frame rule are the same command to every frame. -/
theorem step_eq_of_frameRule {op op' : Byte} {n : Nat} {out : List Byte → State → State} (h : FrameRule op n out)
    (h' : FrameRule op' n out) (s : State) (area : List Byte) (rest : List Request) :
    step { s with requests := .frame (op :: area) :: rest } =
      step { s with requests := .frame (op' :: area) :: rest } := by
  rw [h { s with requests := .frame (op :: area) :: rest } rest area rfl,
    h' { s with requests := .frame (op' :: area) :: rest } rest area rfl]

/-- The operand area of four words is their image without the separators. -/
theorem flatMap_take_drop_serialize {w : Nat} (n : Nat) (v : Vec4 w) :
    ((List.finRange 4).map Fin.val).flatMap (fun i => ((serialize n v).drop ((n + 1) * i)).take n) =
      rspWrite n v.w0 ++ rspWrite n v.w1 ++ rspWrite n v.w2 ++ rspWrite n v.w3 := by
  simp only [List.flatMap_map, take_drop_serialize]
  simp [List.finRange_succ, Vec4.word]

/-- Settles O57: the raw seeding commands of a unit follow one frame rule (O8 with O9, and O12 with O13), and the
frame of SEEDRAW is `flatMap_take_drop_serialize`. -/
theorem sameBytesSameState : Obligations.SameBytesSameState := by
  obtain ⟨-, hseedraw256⟩ := seedrawCommand256
  obtain ⟨-, -, hseedseq256⟩ := seedseqCommand256
  obtain ⟨-, -, hseedraw128, hseedseq128⟩ := rawSeedCommands128
  obtain ⟨-, hseedraw64⟩ := seedraw64Command128
  refine ⟨step_eq_of_frameRule hseedraw256 hseedseq256, fun s area rest => ⟨?_, ?_⟩, fun v => ?_, fun v => ?_⟩
  · exact step_eq_of_frameRule hseedraw128 hseedseq128 s area rest
  · exact step_eq_of_frameRule hseedraw128 hseedraw64 s area rest
  · exact congrArg (0x42#8 :: ·) (flatMap_take_drop_serialize 8 v).symm
  · exact congrArg (0x82#8 :: ·) (flatMap_take_drop_serialize 4 v).symm

end Sys2Proof.Machine
